-- ==== Sys2Proof/Word.lean ====
section
/-! DEFINITION. The word types of the engine (spec 00_scope.md R9, R13; 10_state.md section 2).

A data word has `W` bits, 64 in the SK512 profile and 32 in the SK256 profile.  It is held in 64 bits
in both: an SK256 word has zeros in bits 63:32, which is also how the register window shows it
(R46).  The arithmetic that depends on `W` is in `Machine/Arith.lean`. -/

namespace Sys2Proof

/-- One byte of the MSG and DIGEST buffers. -/
abbrev Byte := BitVec 8

/-- One data word of `CV`, `IV`, `BLK`, `V`, `KS` or `T` (R13, R90). -/
abbrev Word := BitVec 64

/-- One word on the 32-bit host bus, and one command word (R50, R70). -/
abbrev Word32 := BitVec 32

/-- A state vector of 8 words: a chaining value, a block or the cipher state (R13, R99). -/
abbrev Vec8 := Vector Word 8

/-- The vector whose word `i` is `f i`. -/
def Vec8.gen (f : Fin 8 → Word) : Vec8 :=
  #v[f 0, f 1, f 2, f 3, f 4, f 5, f 6, f 7]

/-- Eight zero words. -/
def Vec8.zero : Vec8 := Vec8.gen fun _ => 0

/-- The words of `v`, index 0 first (R10). -/
def Vec8.words (v : Vec8) : List Word := [v[0], v[1], v[2], v[3], v[4], v[5], v[6], v[7]]

end Sys2Proof
end

