-- ==== Sys2Proof/Config.lean ====
section
/-! DEFINITION. What an instance of the engine fixes when it is built, and the values the spec leaves open
(spec 00_scope.md R7, R8; 92_eei_decisions.md section 5).

* `Instance` is the record of the build-time parameters that are plain data.  It is carried inside
  `State` because the form of `exec` and `step` has no other argument for it; no step changes it (log 1).
* The `opaque` constants are the OPEN parameters whose values the spec does not give.  They have no
  body, so a claim holds whatever they are (log 2, 3, 4).
* The constants the spec does give (rotation table, parity constant, configuration data, tags) are
  ordinary definitions in `Machine/Tables.lean`. -/

namespace Sys2Proof

/-- The two profiles (R2, R20). -/
inductive Profile where
  /-- The reference 512-bit variant, 64-bit words. -/
  | sk512
  /-- The reduced variant, 32-bit words. -/
  | sk256
  deriving DecidableEq, Repr

/-- `W`, the word width in bits (R7). -/
def Profile.width : Profile → Nat
  | .sk512 => 64
  | .sk256 => 32

/-- `W/8`, the bytes of a word. -/
def Profile.wordBytes : Profile → Nat
  | .sk512 => 8
  | .sk256 => 4

/-- `BB`, the bytes of a block: `NW * W / 8` with `NW = 8` (R7). -/
def Profile.blockBytes (p : Profile) : Nat := 8 * p.wordBytes

/-- `DB`, the bytes of a digest: the whole 8-word state (R7, R118). -/
def Profile.digestBytes (p : Profile) : Nat := 8 * p.wordBytes

/-- The build-time parameters of one instance (R7, R8).  CONFIGURATION, not machine state. -/
structure Instance where
  /-- `PROFILE` (R20). -/
  profile : Profile
  /-- `MSG_MAX`, the bytes of the message buffer (R7, R35). -/
  msgMax : Nat
  /-- `BASE`, the platform address of the register window (R50). -/
  base : Nat
  /-- `PLUGIN_PRESENT` (R7, R76, R124). -/
  pluginPresent : Bool
  /-- `ALIGNED_EXTRA_BLOCK` (R7, R106). -/
  alignedExtraBlock : Bool
  /-- `OUT_DATA_32`, the output-phase data of an SK256 instance: OPEN, by default 8 zero bytes (R7, R159). -/
  outData32 : List Byte
  deriving DecidableEq, Repr

/-- What R7 requires of MSG_MAX: a multiple of 64, at least 128; and R35: it is shown in a 32-bit register. -/
abbrev Instance.wf (c : Instance) : Prop :=
  128 ≤ c.msgMax ∧ c.msgMax % 64 = 0 ∧ c.msgMax < 2 ^ 32

/-- The default instance: SK512, no plug-in, ALIGNED_EXTRA_BLOCK = false, OUT_DATA_32 its default of 8 zero
bytes (R7, R20, R159).  MSG_MAX and BASE are OPEN; the two values here are the model's (log 5). -/
def Instance.initial : Instance where
  profile := .sk512
  msgMax := 4096
  base := 0
  pluginPresent := false
  alignedExtraBlock := false
  outData32 := List.replicate 8 0x00

/-- The byte order of a plug-in's word packing, `G_ENDIAN` (R123). -/
inductive Endian where
  | little
  | big
  deriving DecidableEq, Repr, Inhabited

namespace Config

/-- `ROT_32[8][4]`, entries 0 to 31 (R172). OPEN (log 2). -/
opaque rot32 : Fin 8 → Fin 4 → Fin 32

/-- `KS_PARITY_32` (R134). OPEN (log 2). -/
opaque ksParity32 : BitVec 32

/-- `TWEAK_MAP_32(p, type, first, final)` (R131). OPEN (log 2). -/
opaque tweakMap32 : BitVec 64 → BitVec 6 → Bool → Bool → BitVec 32 × BitVec 32

/-- `CFG_BLOCK_32`, the SK256 configuration data, its bytes and so its length (R155). OPEN (log 2). -/
opaque cfgBlock32 : List Byte

/-- `ROUNDFN(state, block, index)` of the plug-in (R124), for an instance of the given profile. OPEN (log 3). -/
opaque roundFn : Profile → Vec8 → List Word → Nat → Vec8

/-- `G_IV` (R124). OPEN (log 3). -/
opaque gIv : Profile → Vec8

/-- `G_BW - 8`: R123 bounds `G_BW` by 8 and 16. OPEN (log 3). -/
opaque gBlockWordsOver8 : Profile → Fin 9

/-- How many blocks of `G_BW` words, beyond the first, make up `G_BB`, the padder's block size in bytes
(R122 to R125). OPEN (log 3). -/
opaque gPadBlocksLess1 : Profile → Nat

/-- `G_RESIDUE`, read modulo the block size (R122). OPEN (log 3). -/
opaque gResidue : Profile → Nat

/-- How many times `G_BB` bytes `G_TAIL(m)` has beyond the fewest that make the total length a multiple of
`G_BB` (R122). OPEN (log 3). -/
opaque gTailBlocks : Profile → List Byte → Nat

/-- Byte `k` of `G_TAIL(m)` (R122). OPEN (log 3). -/
opaque gTailByte : Profile → List Byte → Nat → Byte

/-- `G_ENDIAN` (R123). OPEN (log 3). -/
opaque gEndian : Profile → Endian

/-- `G_OUT_WORDS`, at most the 8 words of the state (R125). OPEN (log 3). -/
opaque gOutWords : Profile → Fin 9

/-- FREE VALUE: what the `n`-th host read returns where the spec leaves it unspecified: a register the
running command writes (R45), or a buffer byte nothing has written (R47; 93_implementation_defined.md U2
to U4). (log 4) -/
opaque freeRead : Nat → Word32

end Config

end Sys2Proof
end

