-- ==== Sys2Proof/Machine/Arith.lean ====
section
/-! DEFINITION. The word primitives of spec 40_word_arith.md.  That family has no commands; every command
of the other families computes with these. -/

namespace Sys2Proof.Machine

open Sys2Proof

/-- The `W`-bit word of `w`: `w mod 2^W` (R90). -/
def trunc (p : Profile) (w : Word) : Word :=
  match p with
  | .sk512 => w
  | .sk256 => (w.setWidth 32).setWidth 64

/-- `add_W(a, b) = (a + b) mod 2^W` (R91). -/
def addW (p : Profile) (a b : Word) : Word := trunc p (a + b)

/-- `rotl_W(x, r)`, for `0 <= r < W` (R93). -/
def rotlW (p : Profile) (x : Word) (r : Nat) : Word :=
  match p with
  | .sk512 => x.rotateLeft r
  | .sk256 => ((x.setWidth 32).rotateLeft r).setWidth 64

/-- Exclusive-or of two state vectors, word by word (R92, R99). -/
def xorVec (a b : Vec8) : Vec8 := Vec8.gen fun i => a[i] ^^^ b[i]

/-- Every word of a vector reduced to `W` bits. -/
def truncVec (p : Profile) (v : Vec8) : Vec8 := Vec8.gen fun i => trunc p v[i]

/-- `Σ b[k]·2^(8k)` over the bytes of `b`, byte 0 first (R96). -/
def leNat : List Byte → Nat
  | [] => 0
  | b :: bs => b.toNat + 256 * leNat bs

/-- `le_word(b)` (R96). -/
def leWord (b : List Byte) : Word := BitVec.ofNat 64 (leNat b)

/-- Byte `k` of a word: `(w >> 8k) mod 256` (R97). -/
def byteOf (w : Word) (k : Nat) : Byte := (w >>> (8 * k)).setWidth 8

/-- `le_bytes(w)`, `W/8` bytes (R97). -/
def leBytes (p : Profile) (w : Word) : List Byte := (List.range p.wordBytes).map (byteOf w)

/-- `toWords(d)` (R98), for a byte string whose length is a multiple of `W/8`. -/
def toWords (p : Profile) (d : List Byte) : List Word :=
  (List.range (d.length / p.wordBytes)).map fun i =>
    leWord ((d.drop (i * p.wordBytes)).take p.wordBytes)

end Sys2Proof.Machine
end

