-- ==== Sys2Proof/Machine/State.lean ====
section
/-! DEFINITION. What the engine holds (spec 10_state.md), what the outside world still has to do to it, and
the state after reset. -/

namespace Sys2Proof.Machine

open Sys2Proof

/-- A buffer: the bytes written since hardware reset, addresses strictly rising.  A byte that is not
listed has no value: R47 leaves it unspecified, "for a model an unwritten cell" (log 15). -/
abbrev Memory := List Host.Cell

/-- STATUS.ERR, the error of the last completed command (60_exceptions.md R191).  Codes 6 to 15 are
never produced, so they are no value here. -/
inductive ErrCode where
  /-- Code 0: the command completed normally. -/
  | none
  /-- Code 1: LEN is odd (R105). -/
  | invalidInput
  /-- Code 2: the word is illegal (R77). -/
  | badCommand
  /-- Code 3: INIT has not completed since reset (R152, R160). -/
  | noIv
  /-- Code 4: LEN > MSG_MAX (R192). -/
  | lenRange
  /-- Code 5: LOADBLK with a block index beyond the data (R115). -/
  | badArg
  deriving DecidableEq, Repr

/-- The STATUS register by its fields (R31); its bits are put together in `Machine/Flags.lean`. -/
structure Status where
  /-- Bit 0: a command is accepted and not completed. -/
  busy : Bool
  /-- Bit 1: a command has completed since the last issue or acknowledgement. -/
  done : Bool
  /-- Bit 2: the IV is valid. -/
  ivv : Bool
  /-- Bits 7:4. -/
  err : ErrCode
  /-- Bit 8, sticky: a write was dropped because BUSY = 1. -/
  werr : Bool
  /-- Bit 9, sticky: an illegal access or a write to a read-only register was ignored. -/
  aerr : Bool
  deriving DecidableEq, Repr

/-- STATUS after reset (R47). -/
def Status.reset : Status where
  busy := false
  done := false
  ivv := false
  err := .none
  werr := false
  aerr := false

/-- The width of a host access: 1, 2 or 4 bytes (R50). -/
inductive Size where
  | byte
  | half
  | word
  deriving DecidableEq, Repr

/-- A host access at a platform address (R50).  A write carries its data in the low bits (R51). -/
inductive Access where
  | read (addr : Nat) (size : Size)
  | write (addr : Nat) (size : Size) (data : Word32)
  deriving DecidableEq, Repr

/-- What the outside world does next, or that it leaves the turn to the engine (R14, R229; log 7). -/
inductive Event where
  /-- The host performs an access. -/
  | access (a : Access)
  /-- The engine takes its turn: it executes the accepted command, if there is one. -/
  | engine
  /-- The platform asserts the hardware reset input (R215). -/
  | reset
  deriving DecidableEq, Repr

/-- Everything the engine holds, and the model's own bookkeeping of what is around it. -/
structure State where
  /-- CONFIGURATION: the build-time parameters of this instance (R7, R8).  No step changes it (log 1). -/
  inst : Instance
  /-- CV[0..7] (R21). -/
  cv : Vec8
  /-- IV[0..7] (R22); its valid bit is `status.ivv`. -/
  iv : Vec8
  /-- BLK[0..7] (R24). -/
  blk : Vec8
  /-- V[0..7] (R25). -/
  v : Vec8
  /-- KS[0..8] (R26). -/
  ks : Vector Word 9
  /-- T[0..2] (R27). -/
  t : Vector Word 3
  /-- POS, 64 bits in both profiles (R28). -/
  pos : BitVec 64
  /-- LEN (R29). -/
  len : Word32
  /-- CMD, the last issued word (R30). -/
  cmd : Word32
  /-- STATUS (R31). -/
  status : Status
  /-- CTRL.IE, the only stored bit of CTRL (R32). -/
  ie : Bool
  /-- DIGEST[0..127] (R36), keyed by the byte index. -/
  digest : Memory
  /-- MSG[0..MSG_MAX-1] (R37), keyed by the byte index. -/
  msg : Memory
  /-- MODEL: what host and platform do from here on, the next act first (log 7). -/
  agenda : List Event
  /-- MODEL: the data the last host read returned to the host (log 17). -/
  rdata : Word32
  /-- MODEL: how many host reads there were, which selects the next free value (log 4). -/
  draws : Nat
  deriving DecidableEq, Repr

/-- The engine right after hardware reset (R47, R215): every register 0, idle, no byte of MSG or DIGEST
written, in the default instance, with an empty agenda. -/
def State.reset : State where
  inst := Instance.initial
  cv := Vec8.zero
  iv := Vec8.zero
  blk := Vec8.zero
  v := Vec8.zero
  ks := #v[0, 0, 0, 0, 0, 0, 0, 0, 0]
  t := #v[0, 0, 0]
  pos := 0
  len := 0
  cmd := 0
  status := Status.reset
  ie := false
  digest := []
  msg := []
  agenda := []
  rdata := 0
  draws := 0

/-- Why the model stops.  Neither is a stop of the hardware. -/
inductive Fault where
  /-- Raised by LOADBLK, UBI, HASH and GFOLD when they read a byte of MSG that nothing has written since
  hardware reset.  R47 and 93_implementation_defined.md U3 direct it: the result is not defined by the spec.
  Safe (log 15). -/
  | unwrittenMsg
  /-- Raised by a host access outside the window: "what the platform decodes beyond it is not part of this
  hardware" (R55).  Safe (log 14). -/
  | outsideWindow
  deriving DecidableEq, Repr

/-- Why the model has no answer for an instruction. -/
inductive Refusal where
  /-- An arm of `exec` that has no meaning yet.  Raised by `exec` alone; no arm raises it now.  Safe. -/
  | notModelled (mnemonic : String)
  deriving DecidableEq, Repr

/-- The outcome of a meaning. -/
abbrev Result := Host.Outcome State Fault Refusal

end Sys2Proof.Machine
end

