-- ==== Sys2Proof/Machine/Ops.lean ====
section
/-! DEFINITION. The operations every family shares: the buffers' reads and writes, completing a
command with or without an error, and the two resets. -/

namespace Sys2Proof.Machine

open Sys2Proof

/-! ## Buffers -/

/-- The canonical form of a buffer: addresses strictly rising.  (No listed byte can equal what an
unlisted address reads as, since an unlisted address has no value.) -/
abbrev Memory.wf (m : Memory) : Prop := m.Pairwise fun x y => x.1 < y.1

/-- The byte at `a`, if something has written it. -/
def Memory.read (m : Memory) (a : Nat) : Option Byte :=
  match m with
  | [] => none
  | c :: m => if c.1 = a then some c.2 else Memory.read m a

/-- Write one byte, keeping the canonical form. -/
def Memory.write (m : Memory) (a : Nat) (b : Byte) : Memory :=
  match m with
  | [] => [(a, b)]
  | c :: m =>
    if a < c.1 then (a, b) :: c :: m
    else if a = c.1 then (a, b) :: m
    else c :: Memory.write m a b

/-- `n` bytes from `a` up, if every one of them has been written (`MemRead`, 20_memory.md R58). -/
def Memory.readRange (m : Memory) (a : Nat) : Nat → Option (List Byte)
  | 0 => some []
  | n + 1 =>
    match m.read a, Memory.readRange m (a + 1) n with
    | some b, some bs => some (b :: bs)
    | _, _ => none

/-- Write the bytes of `bs` from `a` up. -/
def Memory.writeRange (m : Memory) (a : Nat) : List Byte → Memory
  | [] => m
  | b :: bs => Memory.writeRange (m.write a b) (a + 1) bs

/-- A buffer whose bytes from `a` up are `bs`, and nothing else. -/
def Memory.ofBytes (a : Nat) : List Byte → Memory
  | [] => []
  | b :: bs => (a, b) :: Memory.ofBytes (a + 1) bs

/-! ## Window offsets of the two buffers (20_memory.md R55) -/

/-- Offset of DIGEST[0]. -/
def digestBase : Nat := 0x200
/-- Bytes of the DIGEST buffer. -/
def digestSize : Nat := 128
/-- Offset of MSG[0]. -/
def msgBase : Nat := 0x1000

/-- The stored byte of memory at a window offset: a byte of DIGEST or of MSG; `none` where nothing has
been written and outside the two buffers. -/
def State.bufByte (s : State) (off : Nat) : Option Byte :=
  if digestBase ≤ off ∧ off < digestBase + digestSize then s.digest.read (off - digestBase)
  else if msgBase ≤ off ∧ off < msgBase + s.inst.msgMax then s.msg.read (off - msgBase)
  else none

/-! ## Completion and errors (60_exceptions.md) -/

/-- Completion: BUSY, DONE and ERR, in one step (R195). -/
def Status.complete (st : Status) (e : ErrCode) : Status :=
  { st with busy := false, done := true, err := e }

/-- The state after the completion of a command with code `e` (R195). -/
def complete (e : ErrCode) (s : State) : State :=
  { s with status := s.status.complete e }

/-- The command has had its effect: complete without error. -/
def finish (s : State) : Result := .next (complete .none s)

/-- `raise E`: end the command at once with ERR = `e` and no other change (R196).  This is all that an
error does: there is no trap entry, no saved context, no vector and no return (R202). -/
def raise (e : ErrCode) (s : State) : Result := .next (complete e s)

/-! ## Reset (70_reset_and_hazards.md) -/

/-- Hardware reset (R215, R47): every register to its reset value, MSG and DIGEST unspecified.  The
instance and what the outside world does are not the engine's to reset (log 22). -/
def hardReset (s : State) : State :=
  { State.reset with inst := s.inst, agenda := s.agenda, rdata := s.rdata, draws := s.draws }

/-- Soft reset (R217): as hardware reset, but MSG and DIGEST keep their contents. -/
def softReset (s : State) : State :=
  { hardReset s with digest := s.digest, msg := s.msg }

end Sys2Proof.Machine
end

