-- ==== Sys2Proof/Machine/Format.lean ====
section
/-! DEFINITION. The formatter and the command FORMAT (spec 41_engine.md sections 6 and 7). -/

namespace Sys2Proof.Machine

open Sys2Proof

/-- `hexchar(n)`, the ASCII byte of a lowercase hexadecimal digit (R116). -/
def hexChar (n : BitVec 4) : Byte :=
  if n.toNat ≤ 9 then 0x30 + n.setWidth 8 else 0x61 + (n.setWidth 8 - 10)

/-- The two characters of one digest byte, high nibble first (R117). -/
def hexByte (x : Byte) : List Byte := [hexChar (x.extractLsb' 4 4), hexChar (x.extractLsb' 0 4)]

/-- The characters of a list of words, each word least-significant byte first (R119). -/
def hexWords (p : Profile) (ws : List Word) : List Byte :=
  ws.flatMap fun w => (leBytes p w).flatMap hexByte

/-- `format(cv)`: all 8 words in ascending order (R118, R119). -/
def formatDigest (p : Profile) (cv : Vec8) : List Byte := hexWords p cv.words

/-- The whole DIGEST buffer holding the characters `cs`, 0x00 in every byte after them (R121). -/
def digestImage (cs : List Byte) : Memory :=
  Memory.ofBytes 0 ((cs ++ List.replicate digestSize 0x00).take digestSize)

/-- The formatter: DIGEST gets the digest of CV (R121). -/
def writeDigest (s : State) : State :=
  { s with digest := digestImage (formatDigest s.inst.profile s.cv) }

/-- FORMAT (R121). -/
def execFormat (s : State) : Result := finish (writeDigest s)

end Sys2Proof.Machine
end

