-- ==== Sys2Proof/Machine/Operands.lean ====
section
/-! DEFINITION. What commands read of LEN and MSG: the input check, the zero padder, the block
loader and the positions (spec 41_engine.md sections 1 to 3). -/

namespace Sys2Proof.Machine

open Sys2Proof

/-- `check_input(LEN)` (R105): the error of a LEN that no command that reads MSG accepts, the first of
LEN_RANGE and INVALID_INPUT that applies (R194). -/
def inputError (s : State) : Option ErrCode :=
  if s.inst.msgMax < s.len.toNat then some .lenRange
  else if s.len.toNat % 2 = 1 then some .invalidInput
  else none

/-- `nblocks(L)` (R106). -/
def nblocks (c : Instance) (L : Nat) : Nat :=
  let BB := c.profile.blockBytes
  max 1 ((L + BB - 1) / BB) + if c.alignedExtraBlock ∧ 0 < L ∧ L % BB = 0 then 1 else 0

/-- `pos(L, k, N)` (R112). -/
def blockPos (c : Instance) (L k N : Nat) : BitVec 64 :=
  BitVec.ofNat 64 (if k + 1 < N then (k + 1) * c.profile.blockBytes else L)

/-- The block of 8 words held in the bytes `d`, a byte beyond the end of `d` being 0x00 (R107, R110). -/
def wordsOf (p : Profile) (d : List Byte) : Vec8 :=
  Vec8.gen fun i =>
    leWord ((List.range p.wordBytes).map fun j => d.getD (i.val * p.wordBytes + j) 0x00)

/-- Block `k` of the zero-padded data `d` (R109, R110). -/
def blockWords (p : Profile) (d : List Byte) (k : Nat) : Vec8 :=
  wordsOf p (d.drop (k * p.blockBytes))

/-- `MSG[0..LEN-1]`, if every byte of it has been written (R58, R219). -/
def messageData (s : State) : Option (List Byte) := s.msg.readRange 0 s.len.toNat

/-- The bytes of MSG that lie in block `k` (R109), if every one of them has been written. -/
def messageBlock (s : State) (k : Nat) : Option (List Byte) :=
  let BB := s.inst.profile.blockBytes
  s.msg.readRange (k * BB) (min BB (s.len.toNat - k * BB))

/-- A command that works on the whole message: the input check, then the bytes, then its effect `f`.
An unwritten byte is the model's fault (R47, R219; log 15). -/
def withMessage (s : State) (f : List Byte → State) : Result :=
  match inputError s with
  | some e => raise e s
  | none =>
    match messageData s with
    | some d => finish (f d)
    | none => .fault .unwrittenMsg

end Sys2Proof.Machine
end

