-- ==== Sys2Proof/Machine/Engine.lean ====
section
/-! DEFINITION. LOADBLK, NOP, and the plug-in port with GFOLD (spec 41_engine.md sections 5, 8 and 9). -/

namespace Sys2Proof.Machine

open Sys2Proof

/-- NOP: nothing but its completion (R126). -/
def execNop (s : State) : Result := finish s

/-- LOADBLK k: block `k` of the padded MSG data into BLK and its position into POS (R115).  The errors in
R194's order: LEN_RANGE, INVALID_INPUT, BAD_ARG. -/
def execLoadblk (k : BitVec 8) (s : State) : Result :=
  let N := nblocks s.inst s.len.toNat
  match inputError s with
  | some e => raise e s
  | none =>
    if N ≤ k.toNat then raise .badArg s
    else
      match messageBlock s k.toNat with
      | some d =>
        finish { s with
          blk := wordsOf s.inst.profile d
          pos := blockPos s.inst s.len.toNat k.toNat N }
      | none => .fault .unwrittenMsg

/-! ## The plug-in port (R122 to R125) -/

/-- `G_BW`, the words of a plug-in block, 8 to 16 (R123). -/
def gBlockWords (p : Profile) : Nat := 8 + (Config.gBlockWordsOver8 p).val

/-- `G_BB`, the padder's block size in bytes: whole blocks of `G_BW` words, at least one (R122, R123; log 3). -/
def gBlockBytes (p : Profile) : Nat := (Config.gPadBlocksLess1 p + 1) * (gBlockWords p * p.wordBytes)

/-- `z` of R122: the least `z` with `(n + z) mod BB = residue mod BB`. -/
def padLength (BB residue n : Nat) : Nat := (residue % BB + BB - n % BB) % BB

/-- `pad80(m)` (R122). -/
def pad80 (p : Profile) (m : List Byte) : List Byte :=
  m ++ [0x80]
    ++ List.replicate (padLength (gBlockBytes p) (Config.gResidue p) (m.length + 1)) 0x00

/-- `G_TAIL(m)`: any bytes, of any length that makes the total a multiple of `G_BB` (R122). -/
def gTail (p : Profile) (m : List Byte) : List Byte :=
  (List.range (padLength (gBlockBytes p) 0 (pad80 p m).length + Config.gTailBlocks p m * gBlockBytes p)).map
    (Config.gTailByte p m)

/-- `pad80(m) || G_TAIL(m)` (R122, R125). -/
def padG (p : Profile) (m : List Byte) : List Byte := pad80 p m ++ gTail p m

/-- `toWords_G(d)`: R98 with the plug-in's byte order (R123). -/
def toWordsG (p : Profile) (d : List Byte) : List Word :=
  match Config.gEndian p with
  | .little => toWords p d
  | .big =>
    (List.range (d.length / p.wordBytes)).map fun i =>
      leWord ((d.drop (i * p.wordBytes)).take p.wordBytes).reverse

/-- The plug-in's state after the first `n` blocks of the words `w` (R125), a state of `W`-bit words (R124). -/
def foldG (p : Profile) (w : List Word) : Nat → Vec8
  | 0 => truncVec p (Config.gIv p)
  | b + 1 =>
    truncVec p
      (Config.roundFn p (foldG p w b) ((w.drop (b * gBlockWords p)).take (gBlockWords p)) b)

/-- The plug-in's state for the message `m`: `|w|/G_BW` blocks, an exact division (R125; `length_toWordsG_padG`). -/
def pluginHash (p : Profile) (m : List Byte) : Vec8 :=
  let w := toWordsG p (padG p m)
  foldG p w (w.length / gBlockWords p)

/-- The last `G_OUT_WORDS` words of a state, in hexadecimal (R118, R125). -/
def formatG (p : Profile) (st : Vec8) : List Byte :=
  hexWords p (st.words.drop (8 - (Config.gOutWords p).val))

/-- GFOLD: hash MSG with the plug-in into CV and DIGEST (R125). -/
def execGfold (s : State) : Result :=
  withMessage s fun d =>
    let st := pluginHash s.inst.profile d
    { s with cv := st, digest := digestImage (formatG s.inst.profile st) }

end Sys2Proof.Machine
end

