-- ==== Sys2Proof/Machine/Tables.lean ====
section
/-! DEFINITION. The constants the spec gives: pairing and rotation tables, key-schedule constant,
type tags, configuration and output-phase data.  Those of SK256 that the spec leaves OPEN come from
`Config` or from the instance. -/

namespace Sys2Proof.Machine

open Sys2Proof

/-- `EVEN[d mod 4][j]` (43_mix.md R171). -/
def evenTable : Vector (Vector (Fin 8) 4) 4 :=
  #v[#v[0, 2, 4, 6],
     #v[2, 4, 6, 0],
     #v[4, 6, 0, 2],
     #v[6, 0, 2, 4]]

/-- `ODD[d mod 4][j]` (R171). -/
def oddTable : Vector (Vector (Fin 8) 4) 4 :=
  #v[#v[1, 3, 5, 7],
     #v[1, 7, 5, 3],
     #v[1, 3, 5, 7],
     #v[1, 7, 5, 3]]

/-- `ROT[d mod 8][j]` of SK512 (R172). -/
def rotTable512 : Vector (Vector Nat 4) 8 :=
  #v[#v[46, 36, 19, 37],
     #v[33, 27, 14, 42],
     #v[17, 49, 36, 39],
     #v[44, 9, 54, 56],
     #v[39, 30, 34, 24],
     #v[13, 50, 10, 17],
     #v[25, 29, 39, 43],
     #v[8, 35, 56, 22]]

/-- The even slot of mix `j` of round `d`. -/
def evenSlot (d : Nat) (j : Fin 4) : Fin 8 := (evenTable[d % 4]'(Nat.mod_lt _ (by decide)))[j]

/-- The odd slot of mix `j` of round `d`. -/
def oddSlot (d : Nat) (j : Fin 4) : Fin 8 := (oddTable[d % 4]'(Nat.mod_lt _ (by decide)))[j]

/-- The rotation amount of mix `j` of round `d` (R172). -/
def rotAmount (p : Profile) (d : Nat) (j : Fin 4) : Nat :=
  match p with
  | .sk512 => (rotTable512[d % 8]'(Nat.mod_lt _ (by decide)))[j]
  | .sk256 => (Config.rot32 ⟨d % 8, Nat.mod_lt _ (by decide)⟩ j).val

/-- `NR`, the elementary rounds of one cipher call (R7, R170). -/
def cipherRounds : Nat := 72

/-- `C_KS` (42_ubi.md R134). -/
def keyParity (p : Profile) : Word :=
  match p with
  | .sk512 => 0x1BD11BDAA9FC1A22
  | .sk256 => Config.ksParity32.setWidth 64

/-- `TAG_CFG` (R7, 30_encoding.md R80). -/
def tagCfg : BitVec 6 := 4
/-- `TAG_MSG` (R7, R80). -/
def tagMsg : BitVec 6 := 48
/-- `TAG_OUT` (R7, R80). -/
def tagOut : BitVec 6 := 63

/-- `CFG_DATA`, the configuration data (R155). -/
def cfgData (p : Profile) : List Byte :=
  match p with
  | .sk512 =>
    [0x53, 0x48, 0x41, 0x33] ++ [0x01, 0x00] ++ [0x00, 0x00]
      ++ [0x00, 0x02, 0x00, 0x00, 0x00, 0x00, 0x00, 0x00]
      ++ [0x00] ++ [0x00] ++ [0x00] ++ List.replicate 13 0x00
  | .sk256 => Config.cfgBlock32

/-- `OUT_DATA`, the data of the output phase of an instance (R159). -/
def outData (c : Instance) : List Byte :=
  match c.profile with
  | .sk512 => List.replicate 8 0x00
  | .sk256 => c.outData32

end Sys2Proof.Machine
end

