-- ==== Sys2Proof/Machine/Mix.lean ====
section
/-! DEFINITION. The keyed mix network and its commands VLOAD, INJECT, ROUND, ENCRYPT (spec 43_mix.md).

A round works in place: it never moves a word to another slot (R175). -/

namespace Sys2Proof.Machine

open Sys2Proof

/-- One mix of the slots `a` and `b`: `a += b; b = rotateLeft(b, r) XOR a`, the rotation acting on the old
`b` and the XOR taking the new `a` (R174). -/
def mix (p : Profile) (v : Vec8) (a b : Fin 8) (r : Nat) : Vec8 :=
  let sum := addW p v[a] v[b]
  (v.set a sum).set b (rotlW p v[b] r ^^^ sum)

/-- Mix `j` of round `d`. -/
def mixStep (p : Profile) (d : Nat) (v : Vec8) (j : Fin 4) : Vec8 :=
  mix p v (evenSlot d j) (oddSlot d j) (rotAmount p d j)

/-- `round(v, d)`: the four mixes of elementary round `d` (R174). -/
def elemRound (p : Profile) (v : Vec8) (d : Nat) : Vec8 :=
  mixStep p d (mixStep p d (mixStep p d (mixStep p d v 0) 1) 2) 3

/-- Key word `i` of subkey `s`: `ks[(s + i) mod 9]` (R173). -/
def subkeyWord (ks : Vector Word 9) (s i : Nat) : Word := ks[(s + i) % 9]'(Nat.mod_lt _ (by decide))

/-- Tweak word `n mod 3`. -/
def tweakWord (t : Vector Word 3) (n : Nat) : Word := t[n % 3]'(Nat.mod_lt _ (by decide))

/-- `inject(v, ks, t, s)` (R173): the key words, then two tweak words on words 5 and 6 and the index on
word 7. -/
def inject (p : Profile) (v : Vec8) (ks : Vector Word 9) (t : Vector Word 3) (s : Nat) : Vec8 :=
  let u := Vec8.gen fun i => addW p v[i] (subkeyWord ks s i)
  let u := u.set 5 (addW p u[5] (tweakWord t s))
  let u := u.set 6 (addW p u[6] (tweakWord t (s + 1)))
  u.set 7 (addW p u[7] (BitVec.ofNat 64 s))

/-- The first `n` rounds of the cipher, each with the injection that precedes it (R180). -/
def cipherSteps (p : Profile) (ks : Vector Word 9) (t : Vector Word 3) (v : Vec8) : Nat → Vec8
  | 0 => v
  | d + 1 =>
    let u := cipherSteps p ks t v d
    elemRound p (if d % 4 = 0 then inject p u ks t (d / 4) else u) d

/-- `cipher(ks, t, p)`: 72 rounds with 18 injections, then the final injection (R180, R181). -/
def cipher (p : Profile) (ks : Vector Word 9) (t : Vector Word 3) (block : Vec8) : Vec8 :=
  inject p (cipherSteps p ks t block cipherRounds) ks t 18

/-- VLOAD: `V[i] <- BLK[i]` (R176). -/
def execVload (s : State) : Result := finish { s with v := s.blk }

/-- INJECT n: `V <- inject(V, KS, T, n)` (R177). -/
def execInject (n : BitVec 8) (s : State) : Result :=
  finish { s with v := inject s.inst.profile s.v s.ks s.t n.toNat }

/-- ROUND d: `V <- round(V, d)`; no injection, even where `d mod 4 = 0` (R178). -/
def execRound (d : BitVec 8) (s : State) : Result :=
  finish { s with v := elemRound s.inst.profile s.v d.toNat }

/-- ENCRYPT: `V <- cipher(KS, T, BLK)`, with KS and T as they stand (R179). -/
def execEncrypt (s : State) : Result :=
  finish { s with v := cipher s.inst.profile s.ks s.t s.blk }

end Sys2Proof.Machine
end

