-- ==== Sys2Proof/Machine/Ubi.lean ====
section
/-! DEFINITION. The tweak scheduler, the key schedule, the UBI block step and call, and the commands of
spec 42_ubi.md. -/

namespace Sys2Proof.Machine

open Sys2Proof

/-! ## Tweak, key schedule, feed-forward -/

/-- `(T0, T1)` of `tweak(p, type, first, final)` (R131): in SK512 the position, and the type tag in bits
61:56, `first` in bit 62, `final` in bit 63. -/
def tweakPair (p : Profile) (position : BitVec 64) (type : BitVec 6) (first final : Bool) : Word × Word :=
  match p with
  | .sk512 =>
    (position,
      type.setWidth 64 <<< 56 ||| (BitVec.ofBool first).setWidth 64 <<< 62
        ||| (BitVec.ofBool final).setWidth 64 <<< 63)
  | .sk256 =>
    let m := Config.tweakMap32 position type first final
    (m.1.setWidth 64, m.2.setWidth 64)

/-- `tweak(p, type, first, final)`, with `T2 = T0 ^ T1` (R130, R131). -/
def tweak (p : Profile) (position : BitVec 64) (type : BitVec 6) (first final : Bool) : Vector Word 3 :=
  let m := tweakPair p position type first final
  #v[m.1, m.2, m.1 ^^^ m.2]

/-- `parity(cv)` (R134). -/
def parity (p : Profile) (cv : Vec8) : Word :=
  keyParity p ^^^ cv[0] ^^^ cv[1] ^^^ cv[2] ^^^ cv[3] ^^^ cv[4] ^^^ cv[5] ^^^ cv[6] ^^^ cv[7]

/-- The 9-word key schedule of a chaining value (R135). -/
def keySchedule (p : Profile) (cv : Vec8) : Vector Word 9 :=
  #v[cv[0], cv[1], cv[2], cv[3], cv[4], cv[5], cv[6], cv[7], parity p cv]

/-! ## One block -/

/-- The four sub-steps of a UBI block step on BLK and POS: key schedule, tweak, cipher, feed-forward
(R139, R140). -/
def blockOp (type : BitVec 6) (first final : Bool) (s : State) : State :=
  let ks := keySchedule s.inst.profile s.cv
  let t := tweak s.inst.profile s.pos type first final
  let v := cipher s.inst.profile ks t s.blk
  { s with ks := ks, t := t, v := v, cv := xorVec v s.blk }

/-- `block_step(b, p, type, first, final)` (R145). -/
def blockStep (b : Vec8) (position : BitVec 64) (type : BitVec 6) (first final : Bool) (s : State) :
    State :=
  blockOp type first final { s with blk := b, pos := position }

/-! ## The UBI call -/

/-- The first `k` of the `N` blocks of `ubi(type, d)` (R146, R114). -/
def ubiBlocks (type : BitVec 6) (d : List Byte) (N : Nat) (s : State) : Nat → State
  | 0 => s
  | k + 1 =>
    blockStep (blockWords s.inst.profile d k) (blockPos s.inst d.length k N) type
      (k == 0) (k + 1 == N) (ubiBlocks type d N s k)

/-- `ubi(type, d)`: every block of the zero-padded data in increasing order, keyed by the chaining value
in CV (R146). -/
def ubi (type : BitVec 6) (d : List Byte) (s : State) : State :=
  ubiBlocks type d (nblocks s.inst d.length) s (nblocks s.inst d.length)

/-- The configuration phase: `ubi(TAG_CFG, CFG_DATA)` (R156). -/
def configPhase (s : State) : State := ubi tagCfg (cfgData s.inst.profile) s

/-- The output phase: `ubi(TAG_OUT, OUT_DATA)` (R158). -/
def outputPhase (s : State) : State := ubi tagOut (outData s.inst) s

/-- The initial chaining value of an instance: the configuration phase from the all-zero chaining value
(R154). -/
def initialCv (c : Instance) : Vec8 := (configPhase { State.reset with inst := c }).cv

/-! ## Commands -/

/-- TWEAK type, first, final (R132). -/
def execTweak (type : BitVec 6) (first final : Bool) (s : State) : Result :=
  finish { s with t := tweak s.inst.profile s.pos type first final }

/-- KSCHED (R135). -/
def execKsched (s : State) : Result := finish { s with ks := keySchedule s.inst.profile s.cv }

/-- FEEDFWD: `CV[i] <- V[i] ^ BLK[i]` (R138). -/
def execFeedfwd (s : State) : Result := finish { s with cv := xorVec s.v s.blk }

/-- BLOCK type, first, final (R140). -/
def execBlock (type : BitVec 6) (first final : Bool) (s : State) : Result :=
  finish (blockOp type first final s)

/-- UBI type: one UBI call over MSG[0..LEN-1] (R150). -/
def execUbi (type : BitVec 6) (s : State) : Result := withMessage s fun d => ubi type d s

/-- LOADIV: CV gets a copy of IV; NO_IV before INIT (R152). -/
def execLoadiv (s : State) : Result :=
  if s.status.ivv then finish { s with cv := s.iv } else raise .noIv s

/-- CLEARCV (R153). -/
def execClearcv (s : State) : Result := finish { s with cv := Vec8.zero }

/-- CONFIG: the configuration phase keyed by the current CV (R156). -/
def execConfig (s : State) : Result := finish (configPhase s)

/-- IV and IVV from CV: the last two lines of INIT (R157). -/
def storeIv (s : State) : State :=
  { s with iv := s.cv, status := { s.status with ivv := true } }

/-- INIT: compute the IV once; with IVV = 1 nothing changes (R157). -/
def execInit (s : State) : Result :=
  if s.status.ivv then finish s
  else finish (storeIv (configPhase { s with cv := Vec8.zero }))

/-- OUTPUT: the output phase keyed by the current CV (R158). -/
def execOutput (s : State) : Result := finish (outputPhase s)

/-- HASH: from the stored IV, the message phase, the output phase and the formatter (R160).  NO_IV comes
before the errors of LEN (R194). -/
def execHash (s : State) : Result :=
  if s.status.ivv then
    withMessage s fun d => writeDigest (outputPhase (ubi tagMsg d { s with cv := s.iv }))
  else raise .noIv s

end Sys2Proof.Machine
end

