-- ==== Sys2Proof/Syntax.lean ====
section
/-! DEFINITION. The commands of the engine, one constructor per row of the opcode table
(spec 30_encoding.md R73, opcode_table.json). -/

namespace Sys2Proof

/-- A decoded command.  The operands are the fields of the command word that R73 lists for it:
`type` is TYPE (6 bits), `k`, `s` and `d` are ARG (8 bits), `first` and `final` are the two tweak flags.
There are no register operands (R71). -/
inductive Instr where
  /-- OP 0x00, R126. -/
  | nop
  /-- OP 0x01, R157. -/
  | init
  /-- OP 0x02, R160. -/
  | hash
  /-- OP 0x03, R152. -/
  | loadiv
  /-- OP 0x04, R153. -/
  | clearcv
  /-- OP 0x05, R150. -/
  | ubi (type : BitVec 6)
  /-- OP 0x06, R156. -/
  | config
  /-- OP 0x07, R158. -/
  | output
  /-- OP 0x08, R121. -/
  | format
  /-- OP 0x09, R125; only where the instance has a plug-in (R76). -/
  | gfold
  /-- OP 0x10, R115. -/
  | loadblk (k : BitVec 8)
  /-- OP 0x11, R135. -/
  | ksched
  /-- OP 0x12, R132. -/
  | tweak (type : BitVec 6) (first final : Bool)
  /-- OP 0x13, R176. -/
  | vload
  /-- OP 0x14, R177. -/
  | inject (s : BitVec 8)
  /-- OP 0x15, R178. -/
  | round (d : BitVec 8)
  /-- OP 0x16, R179. -/
  | encrypt
  /-- OP 0x17, R138. -/
  | feedfwd
  /-- OP 0x18, R140. -/
  | block (type : BitVec 6) (first final : Bool)
  deriving DecidableEq, Repr

end Sys2Proof
end

