-- ==== Sys2Proof/Machine/Dispatch.lean ====
section
/-! DEFINITION. The meaning of every command: one arm per constructor of `Instr`. -/

namespace Sys2Proof.Machine

open Sys2Proof

-- The engine executes one command: its effect, then its completion (R229).
def exec (i : Instr) (s : State) : Host.Outcome State Fault Refusal :=
  match i with
  | .nop => Sys2Proof.Machine.execNop s
  | .init => Sys2Proof.Machine.execInit s
  | .hash => Sys2Proof.Machine.execHash s
  | .loadiv => Sys2Proof.Machine.execLoadiv s
  | .clearcv => Sys2Proof.Machine.execClearcv s
  | .ubi type => Sys2Proof.Machine.execUbi type s
  | .config => Sys2Proof.Machine.execConfig s
  | .output => Sys2Proof.Machine.execOutput s
  | .format => Sys2Proof.Machine.execFormat s
  | .gfold => Sys2Proof.Machine.execGfold s
  | .loadblk k => Sys2Proof.Machine.execLoadblk k s
  | .ksched => Sys2Proof.Machine.execKsched s
  | .tweak type first final => Sys2Proof.Machine.execTweak type first final s
  | .vload => Sys2Proof.Machine.execVload s
  | .inject n => Sys2Proof.Machine.execInject n s
  | .round d => Sys2Proof.Machine.execRound d s
  | .encrypt => Sys2Proof.Machine.execEncrypt s
  | .feedfwd => Sys2Proof.Machine.execFeedfwd s
  | .block type first final => Sys2Proof.Machine.execBlock type first final s

end Sys2Proof.Machine
end

