-- ==== Sys2Proof/WellFormed.lean ====
section
/-! DEFINITION. Which commands an instance can be given (spec 30_encoding.md R75, R76).

Every other operand value that `Instr` can hold is encodable: a TYPE of 6 bits, an ARG of 8 bits for
LOADBLK (R75: it is checked at execution, not here) and the two flags. -/

namespace Sys2Proof

/-- INJECT takes the 19 subkey indices 0 to 18 (R75). -/
def injectLimit : Nat := 18

/-- ROUND takes the 72 round indices 0 to 71 (R75). -/
def roundLimit : Nat := 71

/-- The command is legal in an instance whose PLUGIN_PRESENT is `plugin`. -/
def Instr.wf (plugin : Bool) : Instr → Bool
  | .nop => true
  | .init => true
  | .hash => true
  | .loadiv => true
  | .clearcv => true
  | .ubi _ => true
  | .config => true
  | .output => true
  | .format => true
  | .gfold => plugin
  | .loadblk _ => true
  | .ksched => true
  | .tweak _ _ _ => true
  | .vload => true
  | .inject s => decide (s.toNat ≤ injectLimit)
  | .round d => decide (d.toNat ≤ roundLimit)
  | .encrypt => true
  | .feedfwd => true
  | .block _ _ _ => true

end Sys2Proof
end

