-- ==== Sys2Proof/Decode.lean ====
section
/-! DEFINITION. The command word: its fields, the decoder and the encoder (spec 30_encoding.md). -/

namespace Sys2Proof

/-! ## Fields of a command word (R70, R71) -/

/-- OP, bits 7:0. -/
def fieldOp (c : Word32) : BitVec 8 := c.extractLsb' 0 8
/-- TYPE, bits 13:8. -/
def fieldType (c : Word32) : BitVec 6 := c.extractLsb' 8 6
/-- RSV0, bits 15:14. -/
def fieldRsv0 (c : Word32) : BitVec 2 := c.extractLsb' 14 2
/-- ARG, bits 23:16. -/
def fieldArg (c : Word32) : BitVec 8 := c.extractLsb' 16 8
/-- FIRST, bit 24. -/
def fieldFirst (c : Word32) : Bool := c.getLsbD 24
/-- FINAL, bit 25. -/
def fieldFinal (c : Word32) : Bool := c.getLsbD 25
/-- RSV1, bits 31:26. -/
def fieldRsv1 (c : Word32) : BitVec 6 := c.extractLsb' 26 6

/-! ## Decoding (R73 to R78) -/

/-- Why a word is illegal.  Every one of them completes with BAD_COMMAND (R77, R191). -/
inductive Illegal where
  /-- RSV0 or RSV1 is not 0 (R74). -/
  | reservedBits
  /-- A field the opcode does not list is not 0 (R74). -/
  | unusedField
  /-- INJECT with ARG > 18 or ROUND with ARG > 71 (R75). -/
  | argRange
  /-- GFOLD in an instance without a plug-in (R76). -/
  | noPlugin
  /-- 0x0A to 0x0F and 0x19 to 0xFF (R73). -/
  | unassignedOpcode
  deriving DecidableEq, Repr

/-- A command that lists no field: TYPE, ARG, FIRST and FINAL must be 0. -/
def decodeNone (c : Word32) (i : Instr) : Except Illegal Instr :=
  if fieldType c = 0 ∧ fieldArg c = 0 ∧ fieldFirst c = false ∧ fieldFinal c = false then .ok i
  else .error .unusedField

/-- A command that lists TYPE only. -/
def decodeType (c : Word32) (i : BitVec 6 → Instr) : Except Illegal Instr :=
  if fieldArg c = 0 ∧ fieldFirst c = false ∧ fieldFinal c = false then .ok (i (fieldType c))
  else .error .unusedField

/-- A command that lists ARG only, with the largest value it takes. -/
def decodeArg (c : Word32) (limit : Nat) (i : BitVec 8 → Instr) : Except Illegal Instr :=
  if fieldType c = 0 ∧ fieldFirst c = false ∧ fieldFinal c = false then
    if (fieldArg c).toNat ≤ limit then .ok (i (fieldArg c)) else .error .argRange
  else .error .unusedField

/-- A command that lists TYPE, FIRST and FINAL. -/
def decodeFlags (c : Word32) (i : BitVec 6 → Bool → Bool → Instr) : Except Illegal Instr :=
  if fieldArg c = 0 then .ok (i (fieldType c) (fieldFirst c) (fieldFinal c))
  else .error .unusedField

/-- `decode(c)` of R78, total on every 32-bit word, for an instance whose PLUGIN_PRESENT is `plugin`. -/
def decode (plugin : Bool) (c : Word32) : Except Illegal Instr :=
  if fieldRsv0 c = 0 ∧ fieldRsv1 c = 0 then
    match fieldOp c with
    | 0x00#8 => decodeNone c .nop
    | 0x01#8 => decodeNone c .init
    | 0x02#8 => decodeNone c .hash
    | 0x03#8 => decodeNone c .loadiv
    | 0x04#8 => decodeNone c .clearcv
    | 0x05#8 => decodeType c .ubi
    | 0x06#8 => decodeNone c .config
    | 0x07#8 => decodeNone c .output
    | 0x08#8 => decodeNone c .format
    | 0x09#8 => if plugin then decodeNone c .gfold else .error .noPlugin
    | 0x10#8 => decodeArg c 255 .loadblk
    | 0x11#8 => decodeNone c .ksched
    | 0x12#8 => decodeFlags c .tweak
    | 0x13#8 => decodeNone c .vload
    | 0x14#8 => decodeArg c injectLimit .inject
    | 0x15#8 => decodeArg c roundLimit .round
    | 0x16#8 => decodeNone c .encrypt
    | 0x17#8 => decodeNone c .feedfwd
    | 0x18#8 => decodeFlags c .block
    | _ => .error .unassignedOpcode
  else .error .reservedBits

/-- The word is legal in an instance whose PLUGIN_PRESENT is `plugin`. -/
def legalWord (plugin : Bool) (c : Word32) : Bool := (decode plugin c).isOk

/-! ## Encoding (R79) -/

/-- `OP | type<<8 | arg<<16 | first<<24 | final<<25` (R79). -/
def assemble (op : BitVec 8) (type : BitVec 6) (arg : BitVec 8) (first final : Bool) : Word32 :=
  op.setWidth 32 ||| type.setWidth 32 <<< 8 ||| arg.setWidth 32 <<< 16
    ||| (BitVec.ofBool first).setWidth 32 <<< 24 ||| (BitVec.ofBool final).setWidth 32 <<< 25

/-- The opcode of a command (R73). -/
def Instr.opcode : Instr → BitVec 8
  | .nop => 0x00
  | .init => 0x01
  | .hash => 0x02
  | .loadiv => 0x03
  | .clearcv => 0x04
  | .ubi _ => 0x05
  | .config => 0x06
  | .output => 0x07
  | .format => 0x08
  | .gfold => 0x09
  | .loadblk _ => 0x10
  | .ksched => 0x11
  | .tweak _ _ _ => 0x12
  | .vload => 0x13
  | .inject _ => 0x14
  | .round _ => 0x15
  | .encrypt => 0x16
  | .feedfwd => 0x17
  | .block _ _ _ => 0x18

/-- The word of a command: its opcode, the fields it lists, and 0 in every other field (R79). -/
def encode (i : Instr) : Word32 :=
  match i with
  | .ubi type => assemble i.opcode type 0 false false
  | .loadblk k => assemble i.opcode 0 k false false
  | .tweak type first final => assemble i.opcode type 0 first final
  | .inject s => assemble i.opcode 0 s false false
  | .round d => assemble i.opcode 0 d false false
  | .block type first final => assemble i.opcode type 0 first final
  | .nop | .init | .hash | .loadiv | .clearcv | .config | .output | .format | .gfold
  | .ksched | .vload | .encrypt | .feedfwd => assemble i.opcode 0 0 false false

/-! ## The host's question about one row of the opcode table -/

/-- What the decoder reads from the `nbits`-bit word `w`.  Every row has 32 bits and a command is one
32-bit word (R72), so the bits are the word.  The table lists GFOLD, which only an instance with a plug-in
decodes (R76); the question is therefore asked of such an instance (log 6). -/
def decodeTableWord (nbits w : Nat) : Option Instr :=
  match decode true (BitVec.ofNat 32 (w % 2 ^ nbits)) with
  | .ok i => some i
  | .error _ => none

end Sys2Proof
end

