-- ==== Sys2Proof/Machine/Flags.lean ====
section
/-! DEFINITION. The control registers as the host sees them: the bits of STATUS, CTRL and ID, the
write-one-to-clear bits, and the completion interrupt. -/

namespace Sys2Proof.Machine

open Sys2Proof

/-- The code of an error in STATUS.ERR (60_exceptions.md R191). -/
def ErrCode.code : ErrCode → BitVec 4
  | .none => 0
  | .invalidInput => 1
  | .badCommand => 2
  | .noIv => 3
  | .lenRange => 4
  | .badArg => 5

/-- The 32 bits of STATUS, bit 31 first (10_state.md R31). -/
def Status.word (st : Status) : Word32 :=
  0#22 ++ BitVec.ofBool st.aerr ++ BitVec.ofBool st.werr ++ st.err.code ++ 0#1
    ++ BitVec.ofBool st.ivv ++ BitVec.ofBool st.done ++ BitVec.ofBool st.busy

/-- A host write of `d` to STATUS: 1 clears DONE, WERR and AERR; every other bit is ignored (R31, R56). -/
def Status.clear (st : Status) (d : Word32) : Status :=
  { st with
    done := st.done && !d.getLsbD 1
    werr := st.werr && !d.getLsbD 8
    aerr := st.aerr && !d.getLsbD 9 }

/-- The 32 bits of CTRL: IE, and SRST which reads 0 (R32). -/
def ctrlWord (ie : Bool) : Word32 := 0#30 ++ 0#1 ++ BitVec.ofBool ie

/-- The 32 bits of ID (R34). -/
def idWord (c : Instance) : Word32 :=
  0#6 ++ BitVec.ofBool c.alignedExtraBlock ++ BitVec.ofBool c.pluginPresent
    ++ 0x01#8 ++ 0x08#8 ++ BitVec.ofNat 8 c.profile.width

/-- The interrupt output: `IRQ = CTRL.IE & STATUS.DONE` (60_exceptions.md R199). -/
def State.irq (s : State) : Bool := s.ie && s.status.done

/-- WERR: a write was dropped because BUSY = 1 (10_state.md R40). -/
def dropWrite (s : State) : State := { s with status := { s.status with werr := true } }

/-- AERR: an access was ignored (20_memory.md R56). -/
def ignoreAccess (s : State) : State := { s with status := { s.status with aerr := true } }

end Sys2Proof.Machine
end

