-- ==== Sys2Proof/Machine/Window.lean ====
section
/-! DEFINITION. The register window: which register an offset names, what a host read returns and what a
host write does (spec 20_memory.md, 10_state.md section 5, 60_exceptions.md R190). -/

namespace Sys2Proof.Machine

open Sys2Proof

/-! ## Offsets (R53, R55) -/

/-- What a window offset names.  `high` selects bits 63:32 of a word slot (R53). -/
inductive Target where
  | cmd
  | status
  | ctrl
  | len
  | posLo
  | posHi
  | id
  | msgMax
  | cv (i : Fin 8) (high : Bool)
  | iv (i : Fin 8) (high : Bool)
  | blk (i : Fin 8) (high : Bool)
  | v (i : Fin 8) (high : Bool)
  | ks (i : Fin 9) (high : Bool)
  | t (i : Fin 3) (high : Bool)
  | digest (j : Nat)
  | msg (j : Nat)
  | reserved
  deriving DecidableEq, Repr

/-- The bytes of an access. -/
def Size.bytes : Size → Nat
  | .byte => 1
  | .half => 2
  | .word => 4

/-- Bytes of the window: offsets 0x000 to 0x1000+MSG_MAX-1 (R55). -/
def windowSize (c : Instance) : Nat := msgBase + c.msgMax

/-- The window offset of a platform address, if the address lies in the window at BASE (R50). -/
def windowOffset (c : Instance) (addr : Nat) : Option Nat :=
  if c.base ≤ addr ∧ addr < c.base + windowSize c then some (addr - c.base) else none

/-- Below 0x200: a 4-byte access at a multiple of 4.  From 0x200 on: an access at a multiple of its size
(R54; for 0x280 to 0xFFF log 13). -/
def legalAccess (off : Nat) (size : Size) : Bool :=
  if off < digestBase then decide (size = .word ∧ off % 4 = 0)
  else decide (off % size.bytes = 0)

/-- Word index of a slot offset from the start of its array of 8-byte slots. -/
def slotIndex (n : Nat) (hn : 0 < n) (rel : Nat) : Fin n := ⟨rel / 8 % n, Nat.mod_lt _ hn⟩

/-- The offset is in the high half of its slot. -/
def slotHigh (rel : Nat) : Bool := decide (4 ≤ rel % 8)

/-- The control register number `n` from the start of the window, offset `4n` (R55). -/
def controlTarget : Nat → Target
  | 0 => .cmd
  | 1 => .status
  | 2 => .ctrl
  | 3 => .len
  | 4 => .posLo
  | 5 => .posHi
  | 6 => .id
  | 7 => .msgMax
  | _ => .reserved

/-- The word slot at an offset of 0x040 to 0x1FF (R55). -/
def slotTarget (off : Nat) : Target :=
  if off < 0x080 then .cv (slotIndex 8 (by decide) (off - 0x040)) (slotHigh (off - 0x040))
  else if off < 0x0C0 then .iv (slotIndex 8 (by decide) (off - 0x080)) (slotHigh (off - 0x080))
  else if off < 0x100 then .blk (slotIndex 8 (by decide) (off - 0x0C0)) (slotHigh (off - 0x0C0))
  else if off < 0x140 then .v (slotIndex 8 (by decide) (off - 0x100)) (slotHigh (off - 0x100))
  else if off < 0x188 then .ks (slotIndex 9 (by decide) (off - 0x140)) (slotHigh (off - 0x140))
  else if off < 0x1A0 then .t (slotIndex 3 (by decide) (off - 0x188)) (slotHigh (off - 0x188))
  else .reserved

/-- The register, buffer byte or reserved place at an offset of the window (R55). -/
def locate (off : Nat) : Target :=
  if off < 0x040 then controlTarget (off / 4)
  else if off < 0x200 then slotTarget off
  else if off < 0x280 then .digest (off - digestBase)
  else if off < 0x1000 then .reserved
  else .msg (off - msgBase)

/-- A register the running command may be writing: its reads are unspecified while BUSY (R45). -/
def Target.volatile : Target → Bool
  | .posLo | .posHi | .cv _ _ | .iv _ _ | .blk _ _ | .v _ _ | .ks _ _ | .t _ _ | .digest _ => true
  | .cmd | .status | .ctrl | .len | .id | .msgMax | .msg _ | .reserved => false

/-! ## Halves of a word (R46, R53) -/

/-- The half of a word that the host sees at slot offset +0 (low) or +4 (high). -/
def wordHalf (p : Profile) (high : Bool) (w : Word) : Word32 :=
  match high, p with
  | false, _ => w.extractLsb' 0 32
  | true, .sk512 => w.extractLsb' 32 32
  | true, .sk256 => 0

/-- The word after a host write of one half; the SK256 high half ignores it. -/
def setWordHalf (p : Profile) (high : Bool) (w : Word) (d : Word32) : Word :=
  match high, p with
  | false, _ => w.extractLsb' 32 32 ++ d
  | true, .sk512 => d ++ w.extractLsb' 0 32
  | true, .sk256 => w

/-! ## Host reads -/

/-- The low bytes of a bus word that an access of this size carries (R51; log 16). -/
def Size.mask (size : Size) (d : Word32) : Word32 :=
  match size with
  | .byte => (d.extractLsb' 0 8).setWidth 32
  | .half => (d.extractLsb' 0 16).setWidth 32
  | .word => d

/-- Byte `k` of a bus word (R51). -/
def busByte (d : Word32) (k : Nat) : Byte := (d >>> (8 * k)).setWidth 8

/-- The bus word whose bytes, least significant first, are `bs` (R51). -/
def busWord (bs : List Byte) : Word32 := BitVec.ofNat 32 (leNat bs)

/-- Read `n` bytes of a buffer from `j` up; a byte nothing has written takes its byte of the free value
`free` (R47; log 18). -/
def readBuffer (m : Memory) (j n : Nat) (free : Word32) : Word32 :=
  busWord ((List.range n).map fun k => (m.read (j + k)).getD (busByte free k))

/-- The stored value of what an offset names (R38, R46, R57). -/
def readTarget (s : State) (size : Size) (free : Word32) : Target → Word32
  | .cmd => s.cmd
  | .status => s.status.word
  | .ctrl => ctrlWord s.ie
  | .len => s.len
  | .posLo => s.pos.extractLsb' 0 32
  | .posHi => s.pos.extractLsb' 32 32
  | .id => idWord s.inst
  | .msgMax => BitVec.ofNat 32 s.inst.msgMax
  | .cv i high => wordHalf s.inst.profile high s.cv[i]
  | .iv i high => wordHalf s.inst.profile high s.iv[i]
  | .blk i high => wordHalf s.inst.profile high s.blk[i]
  | .v i high => wordHalf s.inst.profile high s.v[i]
  | .ks i high => wordHalf s.inst.profile high s.ks[i]
  | .t i high => wordHalf s.inst.profile high s.t[i]
  | .digest j => readBuffer s.digest j size.bytes free
  | .msg j => readBuffer s.msg j size.bytes free
  | .reserved => 0

/-- What a legal host read at offset `off` returns: a free value for a register the running command may be
writing (R45), else the stored value. -/
def readValue (s : State) (off : Nat) (size : Size) : Word32 :=
  let free := size.mask (Config.freeRead s.draws)
  if s.status.busy && (locate off).volatile then free else readTarget s size free (locate off)

/-- A host read: the value goes to the host, and nothing of the engine changes (R60), but an illegal access
returns 0 and sets AERR (R56). -/
def hostRead (off : Nat) (size : Size) (s : State) : State :=
  if legalAccess off size then { s with rdata := readValue s off size, draws := s.draws + 1 }
  else { ignoreAccess s with rdata := 0, draws := s.draws + 1 }

/-! ## Host writes -/

/-- The assignments of an issue (60_exceptions.md R190). -/
def accept (c : Word32) (s : State) : State :=
  { s with cmd := c, status := { s.status with done := false, err := .none, busy := true } }

/-- A host write of `c` to CMD while idle: issue it.  An illegal word "completes at once with BAD_COMMAND"
(R77, R190; log 9); a legal one waits for the engine's turn (R229). -/
def issue (c : Word32) (s : State) : State :=
  if legalWord s.inst.pluginPresent c then accept c s else complete .badCommand (accept c s)

/-- A write that only an idle engine takes; while BUSY it is dropped and sets WERR (R40). -/
def whenIdle (s : State) (f : State) : State := if s.status.busy then dropWrite s else f

/-- A host write of `d` to CTRL: SRST resets, else IE is written (R32, R217). -/
def writeCtrl (d : Word32) (s : State) : State :=
  if d.getLsbD 1 then softReset s else { s with ie := d.getLsbD 0 }

/-- A write to a read-only word slot: AERR (R56), but an SK256 high half is ignored without it (R46; log 11). -/
def ignoreSlot (high : Bool) (s : State) : State :=
  match high, s.inst.profile with
  | true, .sk256 => s
  | _, _ => ignoreAccess s

/-- A legal host write of `d` to what an offset names (R38, R40, R56, R57). -/
def writeTarget (size : Size) (d : Word32) (s : State) : Target → State
  | .cmd => whenIdle s (issue d s)
  | .status => { s with status := s.status.clear d }
  | .ctrl => writeCtrl d s
  | .len => whenIdle s { s with len := d }
  | .posLo => whenIdle s { s with pos := s.pos.extractLsb' 32 32 ++ d }
  | .posHi => whenIdle s { s with pos := d ++ s.pos.extractLsb' 0 32 }
  | .cv i high => whenIdle s { s with cv := s.cv.set i (setWordHalf s.inst.profile high s.cv[i] d) }
  | .blk i high => whenIdle s { s with blk := s.blk.set i (setWordHalf s.inst.profile high s.blk[i] d) }
  | .msg j => whenIdle s { s with msg := s.msg.writeRange j ((List.range size.bytes).map (busByte d)) }
  | .iv _ high => ignoreSlot high s
  | .v _ high => ignoreSlot high s
  | .ks _ high => ignoreSlot high s
  | .t _ high => ignoreSlot high s
  | .id => ignoreAccess s
  | .msgMax => ignoreAccess s
  | .digest _ => ignoreAccess s
  | .reserved => s

/-- A host write: an illegal access changes nothing and sets AERR (R56). -/
def hostWrite (off : Nat) (size : Size) (d : Word32) (s : State) : State :=
  if legalAccess off size then writeTarget size d s (locate off) else ignoreAccess s

/-- A host access at a platform address; outside the window it is not this hardware's (R55; log 14). -/
def hostAccess (a : Access) (s : State) : Result :=
  match a with
  | .read addr size =>
    match windowOffset s.inst addr with
    | some off => .next (hostRead off size s)
    | none => .fault .outsideWindow
  | .write addr size d =>
    match windowOffset s.inst addr with
    | some off => .next (hostWrite off size d s)
    | none => .fault .outsideWindow

end Sys2Proof.Machine
end

