-- ==== Sys2Proof/Machine/Turn.lean ====
section
/-! DEFINITION. Whose turn it is, and what the turn does (spec 00_scope.md R14, R15; 70_reset_and_hazards.md
R228, R229; log 7). -/

namespace Sys2Proof.Machine

open Sys2Proof

/-- The engine's turn, one atomic step enabled while BUSY = 1 (R229): it executes the word in CMD.  Idle, it
keeps all state (60_exceptions.md R209).  An illegal word has completed when it was issued, so CMD holds a legal one
while BUSY = 1 (log 9); the model completes any other with BAD_COMMAND too (R77; log 24). -/
def engineTurn (s : State) : Result :=
  if s.status.busy then
    match decode s.inst.pluginPresent s.cmd with
    | .ok i => exec i s
    | .error _ => raise .badCommand s
  else .next s

/-- One act of the outside world, or the turn it leaves to the engine. -/
def eventTurn (e : Event) (s : State) : Result :=
  match e with
  | .access a => hostAccess a s
  | .engine => engineTurn s
  | .reset => .next (hardReset s)

/-- The next turn: the first act of the agenda; when there is none left, the engine's, so that every accepted
command completes (R228). -/
def turn (s : State) : Result :=
  match s.agenda with
  | [] => engineTurn s
  | e :: rest => eventTurn e { s with agenda := rest }

/-- The word `c` issued and the next turn the engine's.  A word of OP 0x09 is placed in an instance with a
plug-in, since no other one can fetch it (R76; log 6). -/
def placeWord (c : Word32) (s : State) : State :=
  { accept c s with
    agenda := .engine :: s.agenda
    inst := { s.inst with pluginPresent := s.inst.pluginPresent || fieldOp c == 0x09#8 } }

end Sys2Proof.Machine
end

