-- ==== Sys2Proof/Machine/Step.lean ====
section
/-! DEFINITION. The step of the machine, and the host's way to put one word where the step takes it from. -/

namespace Sys2Proof.Machine

open Sys2Proof

/-- One step: one host access, one reset, or one turn of the engine, which executes a whole command
(R15, R229). -/
def step (s : State) : Host.Outcome State Fault Refusal := turn s

/-- There is no fetch (20_memory.md R66): the engine takes its command from CMD while BUSY = 1.  So the word is
issued as R190 says, and the engine has the next turn (log 6, log 8). -/
def State.withFetchWord (s : State) (nbits w : Nat) : State :=
  placeWord (BitVec.ofNat 32 (w % 2 ^ nbits)) s

end Sys2Proof.Machine
end

