-- ==== Sys2Proof/Machine/Pseudo.lean ====
section
/-! DEFINITION. The pseudo-instructions: fixed sequences of commands, each run to its completion before the
next (spec 30_encoding.md R82). -/

namespace Sys2Proof.Machine

open Sys2Proof

/-- Run a list of commands in order, stopping at the first fault or refusal.  It is the engine's part of each
`run` (R81): `exec` of the command without the host's issue (R190), which would also write the command's word to
CMD and clear DONE and ERR.  So "end state" in R82 leaves CMD out of the comparison: DESIGN CHOICE (log 25). -/
def execAll : List Instr → State → Result
  | [], s => .next s
  | i :: is, s =>
    match exec i s with
    | .next t => execAll is t
    | .fault r => .fault r
    | .refused r => .refused r

/-- HASHSEQ. -/
def hashSeq : List Instr := [.loadiv, .ubi tagMsg, .output, .format]

/-- STEPBLOCK type, first, final. -/
def stepBlock (type : BitVec 6) (first final : Bool) : List Instr :=
  [.ksched, .tweak type first final, .encrypt, .feedfwd]

/-- `INJECT s; ROUND 4s; ROUND 4s+1; ROUND 4s+2; ROUND 4s+3`. -/
def macroRound (s : Nat) : List Instr :=
  [.inject (BitVec.ofNat 8 s), .round (BitVec.ofNat 8 (4 * s)), .round (BitVec.ofNat 8 (4 * s + 1)),
    .round (BitVec.ofNat 8 (4 * s + 2)), .round (BitVec.ofNat 8 (4 * s + 3))]

/-- STEPENCRYPT. -/
def stepEncrypt : List Instr := .vload :: (List.range 18).flatMap macroRound ++ [.inject 18]

/-- The first part of KEYEDSEQ, with the key bytes in MSG. -/
def keyedSeqKey : List Instr := [.clearcv, .ubi 0, .config]

/-- The second part of KEYEDSEQ, with the message in MSG. -/
def keyedSeqMessage : List Instr := [.ubi tagMsg, .output, .format]

end Sys2Proof.Machine
end

