-- ==== Sys2Proof/Safety.lean ====
section
/-! DEFINITION. The terms claims are stated in: the data a command needs, and the invariant of the engine. -/

namespace Sys2Proof.Machine

open Sys2Proof

/-- LEN passes the input check: at most MSG_MAX and even (R105). -/
abbrev State.LenAccepted (s : State) : Prop :=
  s.len.toNat ≤ s.inst.msgMax ∧ s.len.toNat % 2 = 0

/-- `d` is the message: `MSG[0..LEN-1]`, every byte of it written (R58, R219). -/
abbrev State.Message (s : State) (d : List Byte) : Prop :=
  d.length = s.len.toNat ∧ ∀ j, j < s.len.toNat → s.msg.read j = some (d.getD j 0)

/-- STATUS after a completion without error (R195). -/
def Status.succeeded (st : Status) : Status := { st with busy := false, done := true, err := .none }

/-- STATUS after a completion with the error `e` (R195, R196). -/
def Status.failed (st : Status) (e : ErrCode) : Status := { st with busy := false, done := true, err := e }

/-- Every register holds its reset value (R47). -/
structure State.RegistersReset (s : State) : Prop where
  vectors : ∀ i : Fin 8, s.cv[i] = 0 ∧ s.iv[i] = 0 ∧ s.blk[i] = 0 ∧ s.v[i] = 0
  ks : ∀ i : Fin 9, s.ks[i] = 0
  t : ∀ i : Fin 3, s.t[i] = 0
  pos : s.pos = 0
  len : s.len = 0
  cmd : s.cmd = 0
  status : s.status.word = 0
  ie : s.ie = false

/-- `t` is what the UBI call `ubi(type, d)` leaves of `s` (R146, R145, R43): `cvs k` is the chaining value
before block `k`; CV holds the one after the last block, and BLK, POS, KS, T and V hold the last block's
values.  Nothing else differs. -/
def UbiCall (type : BitVec 6) (d : List Byte) (s t : State) : Prop :=
  let p := s.inst.profile
  let N := nblocks s.inst d.length
  let tw := fun k => tweak p (blockPos s.inst d.length k N) type (k == 0) (k + 1 == N)
  ∃ cvs : Nat → Vec8,
    cvs 0 = s.cv ∧
    (∀ k, k < N → cvs (k + 1)
      = xorVec (cipher p (keySchedule p (cvs k)) (tw k) (blockWords p d k)) (blockWords p d k)) ∧
    t = { s with
      cv := cvs N
      blk := blockWords p d (N - 1)
      pos := blockPos s.inst d.length (N - 1) N
      ks := keySchedule p (cvs (N - 1))
      t := tw (N - 1)
      v := cipher p (keySchedule p (cvs (N - 1))) (tw (N - 1)) (blockWords p d (N - 1)) }

/-- The block loop of program P4: LOADBLK k and BLOCK type for every block in order (R114, R115, R140). -/
def blockLoop (type : BitVec 6) (N : Nat) : List Instr :=
  (List.range N).flatMap fun k => [.loadblk (BitVec.ofNat 8 k), .block type (k == 0) (k + 1 == N)]

/-! ## The formulation with a word permutation (R171, R175) -/

/-- The word permutation π = (2, 1, 4, 7, 6, 5, 0, 3) (R171). -/
def wordPi (i : Fin 8) : Fin 8 := #v[2, 1, 4, 7, 6, 5, 0, 3][i]

/-- A round that mixes the neighbours (0, 1), (2, 3), (4, 5), (6, 7) and then gives new word `i` the old
word `π(i)`. -/
def permRound (p : Profile) (v : Vec8) (d : Nat) : Vec8 :=
  let u := mix p (mix p (mix p (mix p v 0 1 (rotAmount p d 0)) 2 3 (rotAmount p d 1))
    4 5 (rotAmount p d 2)) 6 7 (rotAmount p d 3)
  Vec8.gen fun i => u[wordPi i]

/-- The first `n` rounds of the cipher in that formulation. -/
def permSteps (p : Profile) (ks : Vector Word 9) (t : Vector Word 3) (v : Vec8) : Nat → Vec8
  | 0 => v
  | d + 1 =>
    let u := permSteps p ks t v d
    permRound p (if d % 4 = 0 then inject p u ks t (d / 4) else u) d

/-- The word is a word of `W` bits (R90). -/
abbrev FitsWord (p : Profile) (w : Word) : Prop := w.toNat < 2 ^ p.width

/-- Every data register holds words of `W` bits (R21, R22, R24 to R27). -/
structure State.WordsFit (s : State) : Prop where
  cv : ∀ i : Fin 8, FitsWord s.inst.profile s.cv[i]
  iv : ∀ i : Fin 8, FitsWord s.inst.profile s.iv[i]
  blk : ∀ i : Fin 8, FitsWord s.inst.profile s.blk[i]
  v : ∀ i : Fin 8, FitsWord s.inst.profile s.v[i]
  ks : ∀ i : Fin 9, FitsWord s.inst.profile s.ks[i]
  t : ∀ i : Fin 3, FitsWord s.inst.profile s.t[i]

/-- The invariant of the engine: it holds at reset and every step keeps it. -/
structure State.Inv (s : State) : Prop where
  /-- MSG_MAX is as R7 and R35 require. -/
  inst_wf : s.inst.wf
  /-- Data words have `W` bits (R90), held in 64 with zeros above (log 23). -/
  words_fit : s.WordsFit
  /-- `T[2] = T[0] ^ T[1]` (R27). -/
  tweak_xor : s.t[2] = s.t[0] ^^^ s.t[1]
  /-- A valid IV is the result of the configuration phase; before that IV is 0 (R22, R154, R163). -/
  iv_value : s.iv = if s.status.ivv then initialCv s.inst else Vec8.zero
  /-- A running command has neither completed nor failed (R190), and BUSY never stands over an illegal word:
  DEDUCED from "at once" (log 9, log 24). -/
  busy_running : s.status.busy = true →
    s.status.done = false ∧ s.status.err = .none ∧ legalWord s.inst.pluginPresent s.cmd = true
  /-- MSG is canonical and within MSG_MAX bytes (R37). -/
  msg_wf : s.msg.wf
  msg_range : ∀ c ∈ s.msg, c.1 < s.inst.msgMax
  /-- DIGEST is as hardware reset leaves it, or all of its 128 bytes have been written (R36). -/
  digest_whole : s.digest = [] ∨ ∃ cs : List Byte, cs.length = digestSize ∧ s.digest = Memory.ofBytes 0 cs

end Sys2Proof.Machine
end

