-- ==== Sys2Proof/Certificates/Slice0/Obligations.lean ====
section
/-! DEFINITION. The statements for the provers, from the numbered rules of the spec. -/

open Sys2Proof Sys2Proof.Machine

/-! ## The command word (30_encoding.md) -/

/-- Decoding the word of a command that is legal in an instance gives the command back (R78, R79). -/
def Obligations.EncodeThenDecode : Prop :=
  ∀ (plugin : Bool) (i : Instr), i.wf plugin = true → decode plugin (encode i) = .ok i

/-- A word decodes to a command only if it is that command's word, and the command is legal (R72, R78). -/
def Obligations.DecodeThenEncode : Prop :=
  ∀ (plugin : Bool) (w : Word32) (i : Instr),
    decode plugin w = .ok i → encode i = w ∧ i.wf plugin = true

/-- The legal words are those of the mask and match rows of R74, within the ARG limits of R75, with GFOLD
only where there is a plug-in (R76). -/
def Obligations.LegalWordsAreTheMaskMatchRows : Prop :=
  ∀ (plugin : Bool) (w : Word32), legalWord plugin w = true ↔
    w ∈ [0x00#32, 0x01#32, 0x02#32, 0x03#32, 0x04#32, 0x06#32, 0x07#32, 0x08#32, 0x11#32, 0x13#32,
      0x16#32, 0x17#32] ∨
    (plugin = true ∧ w = 0x09#32) ∨
    w &&& 0xFFFFC0FF#32 = 0x05#32 ∨
    w &&& 0xFF00FFFF#32 = 0x10#32 ∨
    (w &&& 0xFF00FFFF#32 = 0x14#32 ∧ w.toNat / 2 ^ 16 % 2 ^ 8 ≤ 18) ∨
    (w &&& 0xFF00FFFF#32 = 0x15#32 ∧ w.toNat / 2 ^ 16 % 2 ^ 8 ≤ 71) ∨
    w &&& 0xFCFFC0FF#32 = 0x12#32 ∨
    w &&& 0xFCFFC0FF#32 = 0x18#32

/-- The examples of R83. -/
def Obligations.EncodingExamplesDecode : Prop :=
  decode false 0x00000000 = .ok .nop ∧
  decode false 0x00000001 = .ok .init ∧
  decode false 0x00000002 = .ok .hash ∧
  decode false 0x00003005 = .ok (.ubi 48) ∧
  decode false 0x00003F05 = .ok (.ubi 63) ∧
  decode false 0x00000005 = .ok (.ubi 0) ∧
  decode false 0x00010010 = .ok (.loadblk 1) ∧
  decode false 0x03000412 = .ok (.tweak 4 true true) ∧
  decode false 0x01003012 = .ok (.tweak 48 true false) ∧
  decode false 0x00120014 = .ok (.inject 18) ∧
  decode false 0x00470015 = .ok (.round 71) ∧
  decode false 0x03003F18 = .ok (.block 63 true true) ∧
  (∀ plugin, legalWord plugin 0x00480015 = false)

/-! ## Steps, issue, completion, errors (60_exceptions.md, 70_reset_and_hazards.md) -/

/-- While a command runs, the engine's turn is the execution of the word in CMD: a step is `exec` of the
decoded command, at the state with that turn taken off the agenda (R15, R229; the agenda is log 7). -/
def Obligations.StepRunsTheDecodedCommand : Prop :=
  ∀ (s : State) (i : Instr), s.status.busy = true → decode s.inst.pluginPresent s.cmd = .ok i →
    (s.agenda = [] → step s = exec i s) ∧
    (∀ rest, s.agenda = .engine :: rest → step s = exec i { s with agenda := rest })

/-- The other turns: an idle engine keeps all state (R209), a host access in the window is performed
(R61), the reset input resets (R215), an access outside the window is the model's fault (log 7, log 14). -/
def Obligations.StepPerformsTheNextEvent : Prop :=
  ∀ (s : State) (rest : List Event),
    (s.status.busy = false → s.agenda = [] → step s = .next s) ∧
    (s.status.busy = false → s.agenda = .engine :: rest → step s = .next { s with agenda := rest }) ∧
    (s.agenda = .reset :: rest → step s = .next (hardReset { s with agenda := rest })) ∧
    (∀ off size, off < 0x1000 + s.inst.msgMax →
      s.agenda = .access (.read (s.inst.base + off) size) :: rest →
      step s = .next (hostRead off size { s with agenda := rest })) ∧
    (∀ off size d, off < 0x1000 + s.inst.msgMax →
      s.agenda = .access (.write (s.inst.base + off) size d) :: rest →
      step s = .next (hostWrite off size d { s with agenda := rest })) ∧
    (∀ addr size d, (addr < s.inst.base ∨ s.inst.base + 0x1000 + s.inst.msgMax ≤ addr) →
      (s.agenda = .access (.read addr size) :: rest ∨ s.agenda = .access (.write addr size d) :: rest) →
      step s = .fault .outsideWindow)

/-- Issue while idle (R190, R77): CMD gets the word, DONE and ERR are cleared; a legal word makes the engine
BUSY, an illegal one completes at once with BAD_COMMAND; nothing else changes.  That the completion of an
illegal word takes no turn of the engine is the model's reading of "at once" (log 9). -/
def Obligations.IssueTakesOrRejectsAWord : Prop :=
  ∀ (s : State) (w : Word32), s.status.busy = false →
    (legalWord s.inst.pluginPresent w = true → hostWrite 0x000 .word w s
      = { s with cmd := w, status := { s.status with busy := true, done := false, err := .none } }) ∧
    (legalWord s.inst.pluginPresent w = false →
      hostWrite 0x000 .word w s = { s with cmd := w, status := s.status.failed .badCommand })

/-- Every command that ends completes, and an error leaves everything but STATUS as it was (R195, R196). -/
def Obligations.CommandsCompleteAndErrorsArePrecise : Prop :=
  ∀ (i : Instr) (s t : State), exec i s = .next t →
    t.status.busy = false ∧ t.status.done = true ∧
    t.status.werr = s.status.werr ∧ t.status.aerr = s.status.aerr ∧
    (t.status.err ≠ .none → t = { s with status := s.status.failed t.status.err })

/-- The 14 commands that raise no error once decoded end without one from every state (R193). -/
def Obligations.FourteenCommandsNeverFail : Prop :=
  ∀ (s : State) (type : BitVec 6) (first final : Bool) (n d : BitVec 8) (i : Instr),
    i ∈ [Instr.nop, .init, .clearcv, .config, .output, .format, .ksched, .tweak type first final, .vload,
      .inject n, .round d, .encrypt, .feedfwd, .block type first final] →
    ∃ t, exec i s = .next t ∧ t.status.err = .none

/-- Exactly one error is reported, the first in R194's order: BAD_COMMAND at issue, then NO_IV, LEN_RANGE,
INVALID_INPUT, BAD_ARG.  That BAD_COMMAND stands in the very state after the host's write is the model's
reading of "at once" (log 9). -/
def Obligations.FirstErrorInOrderIsReported : Prop :=
  ∀ (s : State) (type : BitVec 6) (k : BitVec 8),
    let error := fun e => Host.Outcome.next { s with status := s.status.failed e }
    (∀ w, s.status.busy = false → legalWord s.inst.pluginPresent w = false →
      (hostWrite 0x000 .word w s).status.err = .badCommand) ∧
    (s.status.ivv = false → exec .hash s = error .noIv ∧ exec .loadiv s = error .noIv) ∧
    (s.inst.msgMax < s.len.toNat →
      (s.status.ivv = true → exec .hash s = error .lenRange) ∧ exec (.ubi type) s = error .lenRange ∧
      exec .gfold s = error .lenRange ∧ exec (.loadblk k) s = error .lenRange) ∧
    (s.len.toNat ≤ s.inst.msgMax → s.len.toNat % 2 = 1 →
      (s.status.ivv = true → exec .hash s = error .invalidInput) ∧
      exec (.ubi type) s = error .invalidInput ∧ exec .gfold s = error .invalidInput ∧
      exec (.loadblk k) s = error .invalidInput) ∧
    (s.len.toNat ≤ s.inst.msgMax → s.len.toNat % 2 = 0 → nblocks s.inst s.len.toNat ≤ k.toNat →
      exec (.loadblk k) s = error .badArg)

/-- The model never refuses, and stops for two reasons only: a host access outside the window (log 14),
and a command that would read a byte of MSG nothing has written (R47, R219; log 15). -/
def Obligations.StepStopsOnlyForTwoReasons : Prop :=
  ∀ s : State, (∀ r, step s ≠ .refused r) ∧ (∀ f, step s = .fault f →
    (f = .outsideWindow ∧ ∃ addr size d rest,
      (addr < s.inst.base ∨ s.inst.base + 0x1000 + s.inst.msgMax ≤ addr) ∧
      (s.agenda = .access (.read addr size) :: rest ∨ s.agenda = .access (.write addr size d) :: rest)) ∨
    (f = .unwrittenMsg ∧ s.status.busy = true ∧ s.LenAccepted ∧
      ∃ j, j < s.len.toNat ∧ s.msg.read j = none))

/-- IRQ is IE and DONE: high after a completion exactly if IE is set; it falls with an issue, with the
acknowledgement of DONE, with either reset, and when IE is cleared; setting IE while DONE = 1 raises it (R199). -/
def Obligations.InterruptFollowsEnableAndDone : Prop :=
  (∀ (i : Instr) (s t : State), exec i s = .next t → t.irq = s.ie) ∧
  (∀ s : State, s.irq = (s.ie && s.status.done) ∧ (hardReset s).irq = false) ∧
  (∀ (s : State) (w : Word32), s.status.busy = false → legalWord s.inst.pluginPresent w = true →
    (hostWrite 0x000 .word w s).irq = false) ∧
  (∀ (s : State) (d : Word32), d.getLsbD 1 = true →
    (hostWrite 0x004 .word d s).irq = false ∧ (hostWrite 0x008 .word d s).irq = false) ∧
  (∀ (s : State) (d : Word32), d.getLsbD 1 = false →
    (hostWrite 0x008 .word d s).irq = (d.getLsbD 0 && s.status.done))

/-! ## Reset (10_state.md R47, 70_reset_and_hazards.md) -/

/-- After hardware reset, from any state, BUSY or not, every register holds its reset value (so BUSY, DONE and
IVV are 0), no byte of MSG or DIGEST has a value, and IRQ is low (R47, R215); `State.reset` is such a state. -/
def Obligations.HardwareResetValues : Prop :=
  (State.reset.RegistersReset ∧ (∀ off, State.reset.bufByte off = none) ∧ State.reset.irq = false) ∧
  ∀ s : State,
    (hardReset s).RegistersReset ∧ (∀ off, (hardReset s).bufByte off = none) ∧ (hardReset s).irq = false

/-- Soft reset, BUSY or not: every register is reset, MSG and DIGEST keep their contents (R217). -/
def Obligations.SoftResetKeepsBuffers : Prop :=
  ∀ (s : State) (d : Word32), d.getLsbD 1 = true →
    (hostWrite 0x008 .word d s).RegistersReset ∧ (hostWrite 0x008 .word d s).irq = false ∧
    (hostWrite 0x008 .word d s).msg = s.msg ∧ (hostWrite 0x008 .word d s).digest = s.digest

/-! ## The register window (10_state.md, 20_memory.md) -/

/-- A write to STATUS clears the W1C bits it holds a 1 for and nothing else; a write to CTRL without SRST
sets IE and nothing else; neither is dropped while BUSY (R31, R32, R40). -/
def Obligations.StatusAndCtrlWrites : Prop :=
  ∀ (s : State) (d : Word32),
    hostWrite 0x004 .word d s
      = { s with status := { s.status with
            done := s.status.done && !d.getLsbD 1
            werr := s.status.werr && !d.getLsbD 8
            aerr := s.status.aerr && !d.getLsbD 9 } } ∧
    (d.getLsbD 1 = false → hostWrite 0x008 .word d s = { s with ie := d.getLsbD 0 })

/-- What the host reads of CMD, STATUS, CTRL, LEN, ID and MSGMAX, BUSY or not, and of POS while idle: the stored
values, bit by bit for STATUS, CTRL and ID, with every reserved bit 0 (R28 to R35, R45); and the read changes
nothing of the engine (R60).  Of the model's own fields it gives the value to the host and counts the read
(log 4, log 17). -/
def Obligations.ControlRegisterReads : Prop :=
  ∀ s : State,
    let got := fun off => (hostRead off .word s).rdata
    (∀ off ∈ [0x000, 0x004, 0x008, 0x00C, 0x010, 0x014, 0x018, 0x01C],
      hostRead off .word s = { s with rdata := got off, draws := s.draws + 1 }) ∧
    got 0x000 = s.cmd ∧ got 0x00C = s.len ∧
    (s.status.busy = false → got 0x010 = s.pos.extractLsb' 0 32 ∧ got 0x014 = s.pos.extractLsb' 32 32) ∧
    ((got 0x004).getLsbD 0 = s.status.busy ∧ (got 0x004).getLsbD 1 = s.status.done ∧
      (got 0x004).getLsbD 2 = s.status.ivv ∧ (got 0x004).getLsbD 3 = false ∧
      (got 0x004).extractLsb' 4 4 = (match s.status.err with
        | .none => 0 | .invalidInput => 1 | .badCommand => 2 | .noIv => 3 | .lenRange => 4 | .badArg => 5) ∧
      (got 0x004).getLsbD 8 = s.status.werr ∧ (got 0x004).getLsbD 9 = s.status.aerr ∧
      ∀ n, 10 ≤ n → (got 0x004).getLsbD n = false) ∧
    ((got 0x008).getLsbD 0 = s.ie ∧ ∀ n, 1 ≤ n → (got 0x008).getLsbD n = false) ∧
    ((got 0x018).extractLsb' 0 8 = (match s.inst.profile with | .sk512 => 0x40 | .sk256 => 0x20) ∧
      (got 0x018).extractLsb' 8 8 = 0x08 ∧ (got 0x018).extractLsb' 16 8 = 0x01 ∧
      (got 0x018).getLsbD 24 = s.inst.pluginPresent ∧ (got 0x018).getLsbD 25 = s.inst.alignedExtraBlock ∧
      ∀ n, 26 ≤ n → (got 0x018).getLsbD n = false) ∧
    (s.inst.wf → (got 0x01C).toNat = s.inst.msgMax)

/-- While BUSY a write to CMD, LEN, POS, CV, BLK or MSG is dropped and sets WERR; a write to STATUS or CTRL has
its effect as while idle (R40).  `h` selects the half of a word slot; that a dropped write to a high half of CV
or BLK sets WERR in SK256 too is the model's reading of R40 beside R46 (log 11). -/
def Obligations.BusyDropsWrites : Prop :=
  ∀ (s : State) (d : Word32), s.status.busy = true →
    let dropped := { s with status := { s.status with werr := true } }
    (∀ off ∈ [0x000, 0x00C, 0x010, 0x014], hostWrite off .word d s = dropped) ∧
    (∀ i h, i < 8 → h < 2 →
      hostWrite (0x040 + 8 * i + 4 * h) .word d s = dropped ∧
      hostWrite (0x0C0 + 8 * i + 4 * h) .word d s = dropped) ∧
    (∀ j size, j < s.inst.msgMax → j % size.bytes = 0 → hostWrite (0x1000 + j) size d s = dropped) ∧
    hostWrite 0x004 .word d s
      = { s with status := { s.status with
            done := s.status.done && !d.getLsbD 1
            werr := s.status.werr && !d.getLsbD 8
            aerr := s.status.aerr && !d.getLsbD 9 } } ∧
    (d.getLsbD 1 = false → hostWrite 0x008 .word d s = { s with ie := d.getLsbD 0 }) ∧
    (d.getLsbD 1 = true → (hostWrite 0x008 .word d s).RegistersReset)

/-- A write of legal width and alignment to ID, MSGMAX, IV, V, KS, T or DIGEST changes nothing and sets AERR,
BUSY or not (R56).  The high halves of SK256 are the subject of R46, stated below. -/
def Obligations.ReadOnlyWritesSetAerr : Prop :=
  ∀ (s : State) (d : Word32),
    let ignored := { s with status := { s.status with aerr := true } }
    hostWrite 0x018 .word d s = ignored ∧ hostWrite 0x01C .word d s = ignored ∧
    (∀ i h, (h = 0 ∨ (h = 1 ∧ s.inst.profile = .sk512)) →
      (i < 8 → hostWrite (0x080 + 8 * i + 4 * h) .word d s = ignored ∧
        hostWrite (0x100 + 8 * i + 4 * h) .word d s = ignored) ∧
      (i < 9 → hostWrite (0x140 + 8 * i + 4 * h) .word d s = ignored) ∧
      (i < 3 → hostWrite (0x188 + 8 * i + 4 * h) .word d s = ignored)) ∧
    (∀ j size, j < 128 → j % size.bytes = 0 → hostWrite (0x200 + j) size d s = ignored)

/-- In SK256 the high half of every word slot reads 0 while idle, and a write to it changes nothing, AERR
included (R46): for CV and BLK while idle, for the read-only IV, V, KS and T BUSY or not (log 11). -/
def Obligations.Sk256HighHalvesReadZero : Prop :=
  ∀ (s : State) (d : Word32) (off i : Nat), s.inst.profile = .sk256 →
    ((i < 8 ∧ off ∈ [0x040 + 8 * i, 0x0C0 + 8 * i] ∧ s.status.busy = false) ∨
      (i < 8 ∧ off ∈ [0x080 + 8 * i, 0x100 + 8 * i]) ∨
      (i < 9 ∧ off = 0x140 + 8 * i) ∨ (i < 3 ∧ off = 0x188 + 8 * i)) →
    hostWrite (off + 4) .word d s = s ∧
    (s.status.busy = false → (hostRead (off + 4) .word s).rdata = 0)

/-- An access of the wrong width or alignment returns 0 or changes nothing, and sets AERR, BUSY or not
(R54, R56).  That such a write to CMD, LEN, POS, CV, BLK or MSG while BUSY leaves WERR as it was is the model's
reading of R56 beside R40 (log 10). -/
def Obligations.IllegalAccessesSetAerr : Prop :=
  ∀ (s : State) (off : Nat) (size : Size) (d : Word32),
    (off < 0x200 ∧ (size ≠ .word ∨ off % 4 ≠ 0)) ∨
      (((0x200 ≤ off ∧ off < 0x280) ∨ 0x1000 ≤ off) ∧ off % size.bytes ≠ 0) →
    hostWrite off size d s = { s with status := { s.status with aerr := true } } ∧
    hostRead off size s
      = { s with status := { s.status with aerr := true }, rdata := 0, draws := s.draws + 1 }

/-- A reserved offset reads 0, ignores writes, and sets no status bit, at every legal width and alignment
(R57).  The widths of 0x280 to 0xFFF are the model's, as for DIGEST and MSG (log 13). -/
def Obligations.ReservedOffsetsReadZero : Prop :=
  ∀ (s : State) (off : Nat) (size : Size) (d : Word32),
    (((0x020 ≤ off ∧ off < 0x040) ∨ (0x1A0 ≤ off ∧ off < 0x200)) ∧ size = .word ∧ off % 4 = 0) ∨
      (0x280 ≤ off ∧ off < 0x1000 ∧ off % size.bytes = 0) →
    hostWrite off size d s = s ∧
    hostRead off size s = { s with rdata := 0, draws := s.draws + 1 }

/-- While BUSY a read of POS, CV, IV, BLK, V, KS, T or DIGEST returns the next free value (R45; log 4), the high
halves of SK256 included (log 12), and changes nothing.  A read of 1, 2 or 4 bytes of DIGEST returns that many
low bytes of it; the 0 above them is the model's choice (log 16).  It holds whatever value the free one is. -/
def Obligations.BusyReadsAreFree : Prop :=
  ∀ (s : State) (i h : Nat), s.status.busy = true → h < 2 →
    let free := { s with rdata := Config.freeRead s.draws, draws := s.draws + 1 }
    hostRead 0x010 .word s = free ∧ hostRead 0x014 .word s = free ∧
    (i < 8 → hostRead (0x040 + 8 * i + 4 * h) .word s = free ∧
      hostRead (0x080 + 8 * i + 4 * h) .word s = free ∧
      hostRead (0x0C0 + 8 * i + 4 * h) .word s = free ∧
      hostRead (0x100 + 8 * i + 4 * h) .word s = free) ∧
    (i < 9 → hostRead (0x140 + 8 * i + 4 * h) .word s = free) ∧
    (i < 3 → hostRead (0x188 + 8 * i + 4 * h) .word s = free) ∧
    (∀ j size, j < 128 → j % size.bytes = 0 → hostRead (0x200 + j) size s
      = { free with rdata := BitVec.ofNat 32 ((Config.freeRead s.draws).toNat % 2 ^ (8 * size.bytes)) })

/-- Idle: a read of a word slot returns bits 31:0 of the word at +0 in both profiles, and bits 63:32 at +4 in
SK512, and changes nothing (R53, R60, R21 to R27). -/
def Obligations.WordSlotReads : Prop :=
  ∀ (s : State) (h : Nat), s.status.busy = false → (h = 0 ∨ (h = 1 ∧ s.inst.profile = .sk512)) →
    let half := fun w : Word => { s with rdata := w.extractLsb' (32 * h) 32, draws := s.draws + 1 }
    (∀ i : Fin 8, hostRead (0x040 + 8 * i + 4 * h) .word s = half s.cv[i] ∧
      hostRead (0x080 + 8 * i + 4 * h) .word s = half s.iv[i] ∧
      hostRead (0x0C0 + 8 * i + 4 * h) .word s = half s.blk[i] ∧
      hostRead (0x100 + 8 * i + 4 * h) .word s = half s.v[i]) ∧
    (∀ i : Fin 9, hostRead (0x140 + 8 * i + 4 * h) .word s = half s.ks[i]) ∧
    (∀ i : Fin 3, hostRead (0x188 + 8 * i + 4 * h) .word s = half s.t[i])

/-- Idle: a write to +0 of a slot of CV or BLK writes bits 31:0 of the word, in both profiles, and one to +4 in
SK512 bits 63:32; the other half, every other word and every register is unchanged (R53, R21, R24).  So the two
halves written one after the other are the word. -/
def Obligations.WordSlotWrites : Prop :=
  ∀ (s : State) (i : Fin 8) (lo hi : Word32), s.status.busy = false →
    hostWrite (0x040 + 8 * i) .word lo s
      = { s with cv := s.cv.set i (s.cv[i].extractLsb' 32 32 ++ lo) } ∧
    hostWrite (0x0C0 + 8 * i) .word lo s
      = { s with blk := s.blk.set i (s.blk[i].extractLsb' 32 32 ++ lo) } ∧
    (s.inst.profile = .sk512 →
      hostWrite (0x044 + 8 * i) .word hi s
        = { s with cv := s.cv.set i (hi ++ s.cv[i].extractLsb' 0 32) } ∧
      hostWrite (0x0C4 + 8 * i) .word hi s
        = { s with blk := s.blk.set i (hi ++ s.blk[i].extractLsb' 0 32) } ∧
      hostWrite (0x044 + 8 * i) .word hi (hostWrite (0x040 + 8 * i) .word lo s)
        = { s with cv := s.cv.set i (hi ++ lo) } ∧
      hostWrite (0x0C4 + 8 * i) .word hi (hostWrite (0x0C0 + 8 * i) .word lo s)
        = { s with blk := s.blk.set i (hi ++ lo) })

/-- Idle: LEN takes all 32 bits, POS_LO and POS_HI are the halves of POS in both profiles, and each reads
back (R28, R29). -/
def Obligations.LenAndPosWrites : Prop :=
  ∀ (s : State) (d lo hi : Word32), s.status.busy = false →
    hostWrite 0x00C .word d s = { s with len := d } ∧
    (let t := hostWrite 0x014 .word hi (hostWrite 0x010 .word lo s)
     t = { s with pos := hi ++ lo } ∧
     (hostRead 0x010 .word t).rdata = lo ∧ (hostRead 0x014 .word t).rdata = hi) ∧
    (hostWrite 0x010 .word lo s).pos = s.pos.extractLsb' 32 32 ++ lo ∧
    (hostWrite 0x014 .word hi s).pos = hi ++ s.pos.extractLsb' 0 32

/-- Idle: a write of 1, 2 or 4 bytes to MSG stores byte `k` of the data at offset `k`, and every other byte of
memory, and every register, is unchanged (R37, R51, R54).  That a 1- or 2-byte write takes its data from the low
bits and ignores those above is the model's choice (log 16). -/
def Obligations.MsgWriteIsLittleEndian : Prop :=
  ∀ (s : State) (j : Nat) (size : Size) (d : Word32), s.status.busy = false → s.inst.wf →
    j < s.inst.msgMax → j % size.bytes = 0 →
    let t := hostWrite (0x1000 + j) size d s
    t = { s with msg := t.msg } ∧
    (∀ k, k < size.bytes → t.bufByte (0x1000 + j + k) = some (d.extractLsb' (8 * k) 8)) ∧
    (∀ off, (off < 0x1000 + j ∨ 0x1000 + j + size.bytes ≤ off) → t.bufByte off = s.bufByte off)

/-- A read of 1, 2 or 4 written bytes of MSG, BUSY or not, or of DIGEST while idle, returns them least significant
first, and changes nothing (R45, R51, R60).  That the bits above a 1- or 2-byte read are 0 is the model's choice
(log 16). -/
def Obligations.BufferReadIsLittleEndian : Prop :=
  ∀ (s : State) (j : Nat) (size : Size) (b : Nat → Byte), j % size.bytes = 0 →
    let number := ((List.range size.bytes).map fun k => (b k).toNat * 2 ^ (8 * k)).sum
    ((∀ k, k < size.bytes → s.msg.read (j + k) = some (b k)) →
      ∃ r, hostRead (0x1000 + j) size s = { s with rdata := r, draws := s.draws + 1 } ∧ r.toNat = number) ∧
    (s.status.busy = false → j < 128 → (∀ k, k < size.bytes → s.digest.read (j + k) = some (b k)) →
      ∃ r, hostRead (0x200 + j) size s = { s with rdata := r, draws := s.draws + 1 } ∧ r.toNat = number)

/-! ## Words (40_word_arith.md) -/

/-- Addition and rotation as R91 and R93 give them in numbers, for words of `W` bits, and the 64-bit sum from
32-bit halves (R95). -/
def Obligations.AddAndRotateInNumbers : Prop :=
  (∀ p a b, (addW p a b).toNat = (a.toNat + b.toNat) % 2 ^ p.width) ∧
  (∀ p x r, r < p.width → FitsWord p x →
    (rotlW p x r).toNat = (x.toNat * 2 ^ r ||| x.toNat / 2 ^ (p.width - r)) % 2 ^ p.width) ∧
  (∀ xh xl yh yl : Word32, addW .sk512 (xh ++ xl) (yh ++ yl)
    = (xh + yh + BitVec.ofNat 32 ((xl.toNat + yl.toNat) / 2 ^ 32)) ++ (xl + yl))

/-- Packing `W/8` bytes into a word and unpacking it are inverse (R96, R97). -/
def Obligations.BytesAndWordsAreInverse : Prop :=
  (∀ p w, FitsWord p w → leWord (leBytes p w) = w) ∧
  (∀ p bs, bs.length = p.wordBytes → leBytes p (leWord bs) = bs) ∧
  (∀ bs : List Byte, bs.length ≤ 8 →
    (leWord bs).toNat = ((List.range bs.length).map fun k => (bs.getD k 0).toNat * 2 ^ (8 * k)).sum)

/-! ## Block engine (41_engine.md) -/

/-- NOP, whose only word is 0, only completes (R126). -/
def Obligations.NopOnlyCompletes : Prop :=
  (∀ s : State, exec .nop s = .next { s with status := s.status.succeeded }) ∧
  ∀ (plugin : Bool) (w : Word32), decode plugin w = .ok .nop ↔ w = 0

/-- `nblocks(L)` (R106): the least number of blocks, at least one, that holds `L` bytes; with
ALIGNED_EXTRA_BLOCK one more when `L` is a positive multiple of the block size. -/
def Obligations.BlockCountCoversTheData : Prop :=
  ∀ (c : Instance) (L : Nat),
    let BB := c.profile.blockBytes
    let N := nblocks c L
    1 ≤ N ∧ (L = 0 → N = 1) ∧
    (0 < L → (c.alignedExtraBlock = false ∨ L % BB ≠ 0) → (N - 1) * BB < L ∧ L ≤ N * BB) ∧
    (0 < L → c.alignedExtraBlock = true → L % BB = 0 → N * BB = L + BB)

/-- LOADBLK k (R115): byte `b` of the block, byte `b mod (W/8)` of word `b div (W/8)`, is the message byte at
`k*BB + b`, or 0 from LEN on (R109, R110); POS is the position of R112; nothing else changes. -/
def Obligations.LoadblkLoadsThePaddedBlock : Prop :=
  ∀ (s : State) (k : BitVec 8) (m : Nat → Byte),
    let BB := s.inst.profile.blockBytes
    let wb := s.inst.profile.wordBytes
    let N := nblocks s.inst s.len.toNat
    s.LenAccepted → k.toNat < N →
    (∀ j, k.toNat * BB ≤ j → j < (k.toNat + 1) * BB → j < s.len.toNat → s.msg.read j = some (m j)) →
    ∃ t, exec (.loadblk k) s = .next t ∧
      t = { s with blk := t.blk, pos := t.pos, status := s.status.succeeded } ∧
      (∀ i : Fin 8, FitsWord s.inst.profile t.blk[i] ∧ ∀ b, b < wb →
        t.blk[i].extractLsb' (8 * b) 8
          = if k.toNat * BB + i * wb + b < s.len.toNat then m (k.toNat * BB + i * wb + b) else 0) ∧
      t.pos.toNat = if k.toNat + 1 < N then (k.toNat + 1) * BB else s.len.toNat

/-- FORMAT (R121): characters `2n` and `2n+1` of DIGEST are the lowercase hexadecimal digits, high nibble
first, of digest byte `n`, which is byte `b` of `CV[i]` for `n = i*(W/8) + b`; the rest of the 128 bytes are 0;
nothing else changes (R116, R117, R119). -/
def Obligations.FormatWritesTheHexDigest : Prop :=
  ∀ s : State,
    let wb := s.inst.profile.wordBytes
    let char := fun n : Nat => BitVec.ofNat 8 (if n ≤ 9 then 0x30 + n else 0x61 + (n - 10))
    ∃ t, exec .format s = .next t ∧
      t = { s with digest := t.digest, status := s.status.succeeded } ∧
      (∀ i : Fin 8, ∀ b, b < wb →
        let x := s.cv[i].toNat / 2 ^ (8 * b) % 256
        t.bufByte (0x200 + 2 * (i * wb + b)) = some (char (x / 16)) ∧
        t.bufByte (0x200 + 2 * (i * wb + b) + 1) = some (char (x % 16))) ∧
      (∀ j, 16 * wb ≤ j → j < 128 → t.bufByte (0x200 + j) = some 0) ∧
      (∀ off, (off < 0x200 ∨ 0x280 ≤ off) → t.bufByte off = s.bufByte off)

/-- GFOLD (R125): the words of the padded message are `n` whole blocks, and `st b` is the plug-in's state before
block `b`; CV gets the last one, DIGEST its last G_OUT_WORDS words in hexadecimal; nothing else changes.  The
plug-in is the OPEN record of R124 in the form of log 3. -/
def Obligations.GfoldFoldsThePaddedMessage : Prop :=
  ∀ (s : State) (d : List Byte), s.LenAccepted → s.Message d →
    let p := s.inst.profile
    let w := toWordsG p (padG p d)
    let n := w.length / gBlockWords p
    ∃ (t : State) (st : Nat → Vec8), exec .gfold s = .next t ∧ w.length = n * gBlockWords p ∧
      st 0 = truncVec p (Config.gIv p) ∧
      (∀ b, b < n → st (b + 1) = truncVec p (Config.roundFn p (st b)
        ((w.drop (b * gBlockWords p)).take (gBlockWords p)) b)) ∧
      t = { s with cv := st n, digest := t.digest, status := s.status.succeeded } ∧
      (∀ j, j < 128 → t.digest.read j
        = some ((hexWords p ((st n).words.drop (8 - (Config.gOutWords p).val))).getD j 0))

/-- The padder of the plug-in port (R122): a 0x80 marker, then the fewest zero bytes that give the residue,
G_RESIDUE being read modulo G_BB, then G_TAIL, with which the total length is a multiple of G_BB; that this
is a whole number of blocks of G_BW words is the model's reading (log 3). -/
def Obligations.PluginPaddingReachesTheResidue : Prop :=
  ∀ (p : Profile) (m : List Byte),
    ∃ z, pad80 p m = m ++ [0x80] ++ List.replicate z 0x00 ∧
      (pad80 p m).length % gBlockBytes p = Config.gResidue p % gBlockBytes p ∧
      (∀ y, (m.length + 1 + y) % gBlockBytes p = Config.gResidue p % gBlockBytes p → z ≤ y) ∧
      padG p m = pad80 p m ++ gTail p m ∧ 0 < gBlockBytes p ∧
      (padG p m).length % gBlockBytes p = 0 ∧ gBlockBytes p % (gBlockWords p * p.wordBytes) = 0

/-! ## UBI (42_ubi.md) -/

/-- TWEAK (R131, R132): SK512 `T[0]` is POS and `T[1]` has the type in bits 61:56, `first` in bit 62, `final` in
bit 63 and 0 elsewhere; SK256 takes the two words from TWEAK_MAP_32; `T[2] = T[0] ^ T[1]`; nothing else
changes. -/
def Obligations.TweakSetsTheTweakWords : Prop :=
  ∀ (s : State) (type : BitVec 6) (first final : Bool),
    ∃ t, exec (.tweak type first final) s = .next t ∧
      t = { s with t := t.t, status := s.status.succeeded } ∧
      t.t[2] = t.t[0] ^^^ t.t[1] ∧
      (s.inst.profile = .sk512 → t.t[0] = s.pos ∧ (t.t[1]).extractLsb' 0 56 = 0 ∧
        (t.t[1]).extractLsb' 56 6 = type ∧ (t.t[1]).getLsbD 62 = first ∧ (t.t[1]).getLsbD 63 = final) ∧
      (s.inst.profile = .sk256 →
        t.t[0] = 0#32 ++ (Config.tweakMap32 s.pos type first final).1 ∧
        t.t[1] = 0#32 ++ (Config.tweakMap32 s.pos type first final).2)

/-- KSCHED (R134, R135): the nine words, the last being the constant XORed with all eight words of CV; nothing
else changes. -/
def Obligations.KschedBuildsTheKeySchedule : Prop :=
  ∀ s : State,
    ∃ t, exec .ksched s = .next t ∧
      t = { s with ks := t.ks, status := s.status.succeeded } ∧
      (∀ (i : Nat) (h : i < 8), t.ks[i] = s.cv[i]) ∧
      t.ks[8] = s.cv.toList.foldl (· ^^^ ·)
        (match s.inst.profile with
          | .sk512 => 0x1BD11BDAA9FC1A22
          | .sk256 => 0#32 ++ Config.ksParity32)

/-- FEEDFWD, VLOAD and CLEARCV: `CV[i] <- V[i] ^ BLK[i]`, `V[i] <- BLK[i]`, `CV[i] <- 0`, and nothing else (R138,
R153, R176). -/
def Obligations.VectorMoves : Prop :=
  ∀ s : State,
    (∃ t, exec .feedfwd s = .next t ∧ t = { s with cv := t.cv, status := s.status.succeeded } ∧
      ∀ i : Fin 8, t.cv[i] = s.v[i] ^^^ s.blk[i]) ∧
    (∃ t, exec .vload s = .next t ∧ t = { s with v := t.v, status := s.status.succeeded } ∧
      ∀ i : Fin 8, t.v[i] = s.blk[i]) ∧
    (∃ t, exec .clearcv s = .next t ∧ t = { s with cv := t.cv, status := s.status.succeeded } ∧
      ∀ i : Fin 8, t.cv[i] = 0)

/-- LOADIV (R152): a copy of IV, or NO_IV before INIT. -/
def Obligations.LoadivCopiesTheIv : Prop :=
  ∀ s : State,
    (s.status.ivv = true → exec .loadiv s = .next { s with cv := s.iv, status := s.status.succeeded }) ∧
    (s.status.ivv = false → exec .loadiv s = .next { s with status := s.status.failed .noIv })

/-- BLOCK has the same end state as STEPBLOCK, from every state (R82, R140), CMD left out (log 25). -/
def Obligations.BlockEqualsStepBlock : Prop :=
  ∀ (s : State) (type : BitVec 6) (first final : Bool),
    ∃ t, exec (.block type first final) s = .next t ∧ execAll (stepBlock type first final) s = .next t

/-- BLOCK in one formula (R140): key schedule of CV, tweak of POS, cipher of BLK, feed-forward; nothing else
changes. -/
def Obligations.BlockRunsOneBlockStep : Prop :=
  ∀ (s : State) (type : BitVec 6) (first final : Bool),
    let p := s.inst.profile
    let ks := keySchedule p s.cv
    let tw := tweak p s.pos type first final
    let v := cipher p ks tw s.blk
    ∃ t, exec (.block type first final) s = .next t ∧
      t = { s with ks := ks, t := tw, v := v, cv := t.cv, status := s.status.succeeded } ∧
      ∀ i : Fin 8, t.cv[i] = v[i] ^^^ s.blk[i]

/-- UBI, CONFIG and OUTPUT run the UBI call of R146 over MSG[0..LEN-1], CFG_DATA and OUT_DATA, in both profiles
and for every number of blocks (R150, R156, R158, R43). -/
def Obligations.UbiCommandsRunUbiCalls : Prop :=
  ∀ (s : State),
    (∀ type d, s.LenAccepted → s.Message d →
      ∃ t, UbiCall type d s t ∧ exec (.ubi type) s = .next { t with status := s.status.succeeded }) ∧
    (∃ t, UbiCall 4 (cfgData s.inst.profile) s t ∧
      exec .config s = .next { t with status := s.status.succeeded }) ∧
    (∃ t, UbiCall 63 (outData s.inst) s t ∧
      exec .output s = .next { t with status := s.status.succeeded })

/-- UBI over a message of up to 256 blocks has the same end state as the loop of LOADBLK and BLOCK over its
blocks (R114, R145, R146), CMD left out (log 25). -/
def Obligations.UbiEqualsTheBlockLoop : Prop :=
  ∀ (s : State) (type : BitVec 6) (d : List Byte), s.LenAccepted → s.Message d →
    nblocks s.inst s.len.toNat ≤ 256 →
    ∃ t, exec (.ubi type) s = .next t ∧
      execAll (blockLoop type (nblocks s.inst s.len.toNat)) s = .next t

/-- SK512: CONFIG is BLOCK CFG, first, final on the configuration block at position 32.  SK512, and SK256 with the
default OUT_DATA_32 of 8 zero bytes: OUTPUT is BLOCK OUT, first, final on the zero block at position 8 (R154,
R155, R156, R158, R159).  CMD is left out of the comparison (log 25). -/
def Obligations.ConstantPhasesRunOneBlock : Prop :=
  ∀ s : State,
    (s.inst.profile = .sk512 →
      ∃ t, exec .config s = .next t ∧
        exec (.block 4 true true)
          { s with blk := #v[0x0000000133414853, 0x0000000000000200, 0, 0, 0, 0, 0, 0], pos := 32 } = .next t) ∧
    (s.inst.profile = .sk512 ∨ s.inst.outData32 = [0, 0, 0, 0, 0, 0, 0, 0] →
      ∃ t, exec .output s = .next t ∧
        exec (.block 63 true true) { s with blk := #v[0, 0, 0, 0, 0, 0, 0, 0], pos := 8 } = .next t)

/-- INIT (R157): with IVV = 1 no change; else the configuration phase from CV = 0, its result also in IV, and
IVV = 1. -/
def Obligations.InitComputesTheIvOnce : Prop :=
  ∀ s : State,
    (s.status.ivv = true → exec .init s = .next { s with status := s.status.succeeded }) ∧
    (s.status.ivv = false →
      ∃ t, exec .config { s with cv := #v[0, 0, 0, 0, 0, 0, 0, 0] } = .next t ∧
        exec .init s = .next { t with iv := t.cv, status := { t.status with ivv := true } })

/-- HASH has the same end state as HASHSEQ, LOADIV, UBI 48, OUTPUT and FORMAT, when no error occurs (R80, R82,
R160, R161), CMD left out (log 25). -/
def Obligations.HashEqualsHashSeq : Prop :=
  ∀ (s : State) (d : List Byte), s.status.ivv = true → s.LenAccepted → s.Message d →
    hashSeq = [.loadiv, .ubi 48, .output, .format] ∧
    ∃ t, exec .hash s = .next t ∧ execAll [.loadiv, .ubi 48, .output, .format] s = .next t

/-- HASH run again after a HASH without error gives the very same state, DIGEST included (R160). -/
def Obligations.HashIsRepeatable : Prop :=
  ∀ s t : State, exec .hash s = .next t → t.status.err = .none → exec .hash t = .next t

/-! ## Mix network (43_mix.md) -/

/-- The pairing tables are the slots that π brings together, and each row names every slot once (R171,
R184). -/
def Obligations.PairingTablesComeFromPi : Prop :=
  (∀ (m : Fin 4) (j : Fin 4),
    evenSlot m j = wordPi^[m] ⟨2 * j, by omega⟩ ∧ oddSlot m j = wordPi^[m] ⟨2 * j + 1, by omega⟩) ∧
  (∀ i : Fin 8, wordPi^[4] i = i) ∧
  (∀ (m : Fin 4) (x : Fin 8),
    (∃! q : Fin 4 × Bool, (if q.2 then oddSlot m q.1 else evenSlot m q.1) = x))

/-- INJECT n (R173, R177) in numbers: every word gets key word `(n + i) mod 9`, words 5 and 6 also tweak words
`n mod 3` and `(n + 1) mod 3`, word 7 also `n`, all modulo 2^W; nothing else changes. -/
def Obligations.InjectAddsTheSubkey : Prop :=
  ∀ (s : State) (n : BitVec 8),
    let key := fun i : Nat => (s.ks[(n.toNat + i) % 9]'(Nat.mod_lt _ (by decide))).toNat
    let tw := fun j : Nat => (s.t[j % 3]'(Nat.mod_lt _ (by decide))).toNat
    let M := 2 ^ s.inst.profile.width
    ∃ t, exec (.inject n) s = .next t ∧
      t = { s with v := t.v, status := s.status.succeeded } ∧
      (∀ (i : Nat) (h : i < 5), (t.v[i]).toNat = ((s.v[i]).toNat + key i) % M) ∧
      (t.v[5]).toNat = ((s.v[5]).toNat + key 5 + tw n.toNat) % M ∧
      (t.v[6]).toNat = ((s.v[6]).toNat + key 6 + tw (n.toNat + 1)) % M ∧
      (t.v[7]).toNat = ((s.v[7]).toNat + key 7 + n.toNat) % M

/-- ROUND d (R174, R178): each of the four pairs is mixed, the rotation acting on the old odd word and the
exclusive-or taking the new even word; with R184 that is every word of V.  Nothing else changes.  The amount is
the entry of R172's table at `d mod 8` and `j`, in SK256 that of the OPEN ROT_32. -/
def Obligations.RoundMixesFourPairs : Prop :=
  (∀ (s : State) (d : BitVec 8),
    let p := s.inst.profile
    ∃ t, exec (.round d) s = .next t ∧
      t = { s with v := t.v, status := s.status.succeeded } ∧
      ∀ j : Fin 4,
        let a := evenSlot d.toNat j
        let b := oddSlot d.toNat j
        t.v[a] = addW p s.v[a] s.v[b] ∧
        t.v[b] = rotlW p s.v[b] (rotAmount p d.toNat j) ^^^ t.v[a]) ∧
  (∀ (d : Nat) (j : Fin 4), rotAmount .sk512 d j
    = (match d % 8 with
      | 0 => [46, 36, 19, 37]
      | 1 => [33, 27, 14, 42]
      | 2 => [17, 49, 36, 39]
      | 3 => [44, 9, 54, 56]
      | 4 => [39, 30, 34, 24]
      | 5 => [13, 50, 10, 17]
      | 6 => [25, 29, 39, 43]
      | _ => [8, 35, 56, 22]).getD j 0) ∧
  (∀ (d : Nat) (j : Fin 4), rotAmount .sk256 d j = (Config.rot32 ⟨d % 8, Nat.mod_lt _ (by decide)⟩ j).val)

/-- ENCRYPT writes the cipher of BLK under KS and T as they stand into V, and nothing else, and its end state
equals that of STEPENCRYPT, from every state (R82, R179, R180), CMD left out (log 25). -/
def Obligations.EncryptEqualsStepEncrypt : Prop :=
  ∀ s : State,
    ∃ t, exec .encrypt s = .next t ∧ execAll stepEncrypt s = .next t ∧
      t = { s with v := cipher s.inst.profile s.ks s.t s.blk, status := s.status.succeeded }

/-- For a fixed key schedule and tweak the cipher is a bijection on the states of W-bit words, in both
profiles (R182). -/
def Obligations.CipherIsABijection : Prop :=
  ∀ (p : Profile) (ks : Vector Word 9) (t : Vector Word 3) (out : Vec8),
    (∀ i : Fin 8, FitsWord p out[i]) →
    ∃! v : Vec8, (∀ i : Fin 8, FitsWord p v[i]) ∧ cipher p ks t v = out

/-- After every fourth round the in-place formulation and the one that applies π after every round hold the
same words in the same slots (R175). -/
def Obligations.InPlaceEqualsPermuted : Prop :=
  ∀ (p : Profile) (ks : Vector Word 9) (t : Vector Word 3) (v : Vec8) (m : Nat),
    cipherSteps p ks t v (4 * m) = permSteps p ks t v (4 * m)

/-! ## The whole machine -/

/-- The invariant holds at reset (R47, R215); that MSG_MAX is 4096 there is the model's choice (log 5). -/
def Obligations.ResetMeetsTheInvariant : Prop := State.reset.Inv

/-- Every step keeps the invariant, from every state that meets it (R22, R27, R41, R90, R163, R190).  Two of its
clauses are the model's choice: BUSY never stands over an illegal word (log 9, log 24), and a word of SK256 is
held in 64 bits with zeros above bit 31 (log 23). -/
def Obligations.StepKeepsTheInvariant : Prop :=
  ∀ s t : State, s.Inv → step s = .next t → t.Inv

/-- The build-time parameters never change: no step writes ID, MSGMAX or what they show, reset included (R34,
R35; log 1). -/
def Obligations.InstanceIsConstant : Prop :=
  ∀ s t : State, step s = .next t → t.inst = s.inst

/-- A valid IV is changed by reset alone, which clears IVV; an IV that is not valid changes only by INIT,
which makes it valid (R22, R41, R163). -/
def Obligations.IvIsWrittenOnce : Prop :=
  ∀ s t : State, step s = .next t →
    (s.status.ivv = true → (t.iv = s.iv ∧ t.status.ivv = true) ∨ t.RegistersReset) ∧
    (s.status.ivv = false → (t.iv = s.iv ∧ t.status.ivv = false) ∨ t.RegistersReset ∨
      (s.status.busy = true ∧ decode s.inst.pluginPresent s.cmd = .ok .init ∧ t.status.ivv = true))

/-- No command writes MSG, LEN, CTRL, ID or CMD, or a sticky bit, or a valid IV, or anything of the instance; only
FORMAT, HASH and GFOLD write DIGEST; every other byte of memory reads as before (R36, R41, R58; GFOLD: log 20). -/
def Obligations.CommandFrames : Prop :=
  ∀ (i : Instr) (s t : State), exec i s = .next t →
    t.msg = s.msg ∧ t.len = s.len ∧ t.ie = s.ie ∧ t.inst = s.inst ∧ t.cmd = s.cmd ∧
    t.status.werr = s.status.werr ∧ t.status.aerr = s.status.aerr ∧
    t.agenda = s.agenda ∧ t.rdata = s.rdata ∧ t.draws = s.draws ∧
    (s.status.ivv = true → t.iv = s.iv) ∧
    (i ∉ [Instr.format, .hash, .gfold] → ∀ off, t.bufByte off = s.bufByte off) ∧
    (∀ off, (off < 0x200 ∨ 0x280 ≤ off) → t.bufByte off = s.bufByte off)

/-- The bytes of MSG from LEN on never affect a command: with any other MSG that agrees below LEN it ends in
the same way, in the same state but for that MSG (R58). -/
def Obligations.BytesBeyondLenHaveNoEffect : Prop :=
  ∀ (i : Instr) (s : State) (m : Memory), (∀ j, j < s.len.toNat → m.read j = s.msg.read j) →
    exec i { s with msg := m } = (match exec i s with
      | .next t => .next { t with msg := m }
      | .fault f => .fault f
      | .refused r => .refused r)

/-- Every accepted command completes: once the agenda is used up and one more turn taken, the engine is idle
(R228, in the form of log 7). -/
def Obligations.AcceptedCommandsComplete : Prop :=
  ∀ s t : State, core.run (s.agenda.length + 1) s = .next t → t.status.busy = false
end

