-- ==== Sys2Proof/Laws/Vec.lean ====
section
/-! SUPPORT. Reading a word of a state vector. -/

namespace Sys2Proof

/-- Two vectors with the same eight words are the same vector. -/
theorem Vec8.ext {a b : Vec8} (h : ∀ i : Fin 8, a[i] = b[i]) : a = b := by
  apply Vector.ext
  intro i hi
  exact h ⟨i, hi⟩

@[simp] theorem Vec8.gen_getElem (f : Fin 8 → Word) (i : Nat) (h : i < 8) :
    (Vec8.gen f)[i] = f ⟨i, h⟩ := by
  have all : ∀ j : Fin 8, (Vec8.gen f)[j] = f j := by simp [Fin.forall_fin_succ, Vec8.gen]
  exact all ⟨i, h⟩

/-- A vector is made of its own words. -/
theorem Vec8.gen_self (v : Vec8) : (Vec8.gen fun i => v[i]) = v :=
  Vec8.ext fun i => by simp

@[simp] theorem Vec8.zero_getElem (i : Nat) (h : i < 8) : Vec8.zero[i] = 0 := by simp [Vec8.zero]

namespace Machine

@[simp] theorem xorVec_getElem (a b : Vec8) (i : Nat) (h : i < 8) :
    (xorVec a b)[i] = a[i] ^^^ b[i] := by
  simp [xorVec]

@[simp] theorem truncVec_getElem (p : Profile) (v : Vec8) (i : Nat) (h : i < 8) :
    (truncVec p v)[i] = trunc p v[i] := by
  simp [truncVec]

end Machine

end Sys2Proof
end

