-- ==== Sys2Proof/Laws/Arith.lean ====
section
/-! SUPPORT. Word arithmetic in numbers: what `W` bits hold, and that every word operation gives a
word of `W` bits (spec 40_word_arith.md R90). -/

namespace Sys2Proof.Machine

open Sys2Proof

theorem trunc_toNat (p : Profile) (w : Word) : (trunc p w).toNat = w.toNat % 2 ^ p.width := by
  cases p
  · simp only [trunc, Profile.width]; have := w.isLt; omega
  · simp only [trunc, Profile.width, BitVec.toNat_setWidth]; omega

theorem width_le (p : Profile) : p.width ≤ 64 := by cases p <;> decide

theorem wordBytes_pos (p : Profile) : 0 < p.wordBytes := by cases p <;> decide

theorem blockBytes_pos (p : Profile) : 0 < p.blockBytes := by cases p <;> decide

theorem width_eq (p : Profile) : p.width = 8 * p.wordBytes := by cases p <;> rfl

theorem fits_trunc (p : Profile) (w : Word) : FitsWord p (trunc p w) := by
  rw [FitsWord, trunc_toNat]; exact Nat.mod_lt _ (Nat.two_pow_pos _)

/-- A word that fits is its own `W`-bit word. -/
theorem trunc_of_fits {p : Profile} {w : Word} (h : FitsWord p w) : trunc p w = w := by
  apply BitVec.eq_of_toNat_eq
  rw [trunc_toNat, Nat.mod_eq_of_lt h]

theorem fits_zero (p : Profile) : FitsWord p 0 := by cases p <;> decide

theorem fits_xor {p : Profile} {a b : Word} (ha : FitsWord p a) (hb : FitsWord p b) :
    FitsWord p (a ^^^ b) := by
  rw [FitsWord, BitVec.toNat_xor]; exact Nat.xor_lt_two_pow ha hb

theorem addW_toNat (p : Profile) (a b : Word) :
    (addW p a b).toNat = (a.toNat + b.toNat) % 2 ^ p.width := by
  rw [addW, trunc_toNat, BitVec.toNat_add]
  exact Nat.mod_mod_of_dvd _ (Nat.pow_dvd_pow 2 (width_le p))

theorem fits_addW (p : Profile) (a b : Word) : FitsWord p (addW p a b) := fits_trunc p _

theorem fits_rotlW (p : Profile) (x : Word) (r : Nat) : FitsWord p (rotlW p x r) := by
  cases p
  · exact BitVec.isLt _
  · simp only [FitsWord, rotlW, Profile.width, BitVec.toNat_setWidth]
    have := ((x.setWidth 32).rotateLeft r).isLt
    omega

/-- `n` bytes are a number below `2^(8n)`. -/
theorem leNat_lt (bs : List Byte) : leNat bs < 2 ^ (8 * bs.length) := by
  induction bs with
  | nil => simp [leNat]
  | cons b bs ih =>
    have hb := b.isLt
    have : 2 ^ (8 * (b :: bs).length) = 256 * 2 ^ (8 * bs.length) := by
      rw [List.length_cons, Nat.mul_add, Nat.pow_add]; omega
    rw [leNat, this]; omega

/-- The word of `W/8` bytes fits. -/
theorem fits_leWord {p : Profile} {bs : List Byte} (h : bs.length = p.wordBytes) :
    FitsWord p (leWord bs) := by
  have := leNat_lt bs
  rw [h, ← width_eq] at this
  rw [FitsWord, leWord, BitVec.toNat_ofNat]
  exact lt_of_le_of_lt (Nat.mod_le _ _) this

/-- A word of at most 8 bytes is their number. -/
theorem leWord_toNat {bs : List Byte} (h : bs.length ≤ 8) : (leWord bs).toNat = leNat bs := by
  rw [leWord, BitVec.toNat_ofNat, Nat.mod_eq_of_lt]
  exact lt_of_lt_of_le (leNat_lt bs) (Nat.pow_le_pow_right (by omega) (by omega))

/-- Byte `k` of the number of a byte string is its byte `k`, 0 beyond its end (R96). -/
theorem leNat_byte (bs : List Byte) : ∀ k, leNat bs / 2 ^ (8 * k) % 256 = (bs.getD k 0).toNat := by
  induction bs with
  | nil => intro k; simp [leNat]
  | cons b bs ih =>
    intro k
    have := b.isLt
    cases k with
    | zero => simp [leNat]; omega
    | succ k =>
      rw [leNat, Nat.mul_add, Nat.pow_add, Nat.mul_comm (2 ^ (8 * k)), ← Nat.div_div_eq_div_mul,
        List.getD_cons_succ, ← ih k]
      congr 2
      omega

theorem byteOf_toNat (w : Word) (k : Nat) : (byteOf w k).toNat = w.toNat / 2 ^ (8 * k) % 256 := by
  simp [byteOf, Nat.shiftRight_eq_div_pow]

/-- The number of the first `n` bytes of a number is that number modulo `2^(8n)`. -/
theorem leNat_of_bytes (n : Nat) : ∀ (w : Nat) (f : Nat → Byte),
    (∀ k, k < n → (f k).toNat = w / 2 ^ (8 * k) % 256) →
    leNat ((List.range n).map f) = w % 2 ^ (8 * n) := by
  induction n with
  | zero => intro w f h; simp [leNat]; omega
  | succ n ih =>
    intro w f h
    rw [List.range_succ_eq_map, List.map_cons, List.map_map, leNat, ih (w / 256) (f ∘ Nat.succ), h 0 (by omega)]
    · simp only [Nat.mul_zero, Nat.pow_zero, Nat.div_one, Nat.mul_add]
      rw [Nat.pow_add, Nat.mul_comm (2 ^ (8 * n)), Nat.mod_mul]
    · intro k hk
      have := h (k + 1) (by omega)
      simp only [Function.comp, Nat.succ_eq_add_one, this]
      rw [Nat.div_div_eq_div_mul]; congr 2
      rw [Nat.mul_add, Nat.pow_add]; norm_num [Nat.mul_comm]

/-- The number of a byte string is the sum of R96. -/
theorem leNat_eq_sum (bs : List Byte) :
    leNat bs = ((List.range bs.length).map fun k => (bs.getD k 0).toNat * 2 ^ (8 * k)).sum := by
  induction bs with
  | nil => rfl
  | cons b bs ih =>
    rw [leNat, ih, List.length_cons, List.range_succ_eq_map, List.map_cons, List.sum_cons, List.map_map]
    simp only [List.getD_cons_zero, Nat.mul_zero, Nat.pow_zero, Nat.mul_one]
    congr 1
    rw [← List.sum_map_mul_left]
    congr 1
    apply List.map_congr_left
    intro k _
    simp [pow_succ, Nat.mul_add]; ring

end Sys2Proof.Machine
end

