-- ==== Sys2Proof/Laws/Memory.lean ====
section
/-! SUPPORT. The laws of a buffer: read after write, everything else kept, the canonical form kept. -/

namespace Sys2Proof.Machine

open Sys2Proof

@[simp] theorem Memory.read_nil (a : Nat) : Memory.read [] a = none := rfl

theorem Memory.read_cons (c : Host.Cell) (m : Memory) (a : Nat) :
    Memory.read (c :: m) a = if c.1 = a then some c.2 else Memory.read m a := rfl

/-- Below every listed address there is nothing. -/
theorem Memory.read_of_lt {m : Memory} {a : Nat} (h : ∀ c ∈ m, a < c.1) : m.read a = none := by
  induction m with
  | nil => rfl
  | cons c m ih =>
    have := h c (by simp)
    rw [Memory.read_cons, if_neg (by omega)]
    exact ih fun x hx => h x (by simp [hx])

/-- A byte reads as what was last written to it. -/
theorem Memory.read_write_same (m : Memory) (a : Nat) (b : Byte) : (m.write a b).read a = some b := by
  induction m with
  | nil => simp [Memory.write, Memory.read_cons]
  | cons c m ih =>
    simp only [Memory.write]
    split
    · simp [Memory.read_cons]
    · split
      · simp [Memory.read_cons]
      · rw [Memory.read_cons, if_neg (by omega), ih]

/-- A write leaves every other byte alone. -/
theorem Memory.read_write_other (m : Memory) {a x : Nat} (b : Byte) (h : x ≠ a) :
    (m.write a b).read x = m.read x := by
  induction m with
  | nil => simp [Memory.write, Memory.read_cons, Ne.symm h]
  | cons c m ih =>
    simp only [Memory.write]
    split
    · rw [Memory.read_cons, if_neg (by simpa using Ne.symm h)]
    · split
      · rw [Memory.read_cons, Memory.read_cons, if_neg (by simpa using Ne.symm h), if_neg (by omega)]
      · rw [Memory.read_cons, Memory.read_cons, ih]

/-- A listed cell after a write is the written one or an old one. -/
theorem Memory.mem_write {m : Memory} {a : Nat} {b : Byte} {c : Host.Cell} (h : c ∈ m.write a b) :
    c = (a, b) ∨ c ∈ m := by
  induction m with
  | nil => simpa [Memory.write] using h
  | cons d m ih =>
    simp only [Memory.write] at h
    split at h
    · simpa using h
    · split at h
      · rcases List.mem_cons.1 h with h | h <;> simp [h]
      · rcases List.mem_cons.1 h with h | h
        · simp [h]
        · rcases ih h with h | h <;> simp [h]

/-- A write keeps the canonical form. -/
theorem Memory.write_wf {m : Memory} (h : m.wf) (a : Nat) (b : Byte) : (m.write a b).wf := by
  induction m with
  | nil => simp [Memory.write, Memory.wf]
  | cons c m ih =>
    simp only [Memory.wf, List.pairwise_cons] at h ih ⊢
    obtain ⟨hc, hm⟩ := h
    simp only [Memory.write]
    split
    · rename_i ha
      refine List.pairwise_cons.2 ⟨?_, List.pairwise_cons.2 ⟨hc, hm⟩⟩
      intro x hx
      rcases List.mem_cons.1 hx with rfl | hx
      · exact ha
      · exact lt_trans ha (hc x hx)
    · split
      · rename_i ha
        exact List.pairwise_cons.2 ⟨fun x hx => by simpa [ha] using hc x hx, hm⟩
      · refine List.pairwise_cons.2 ⟨?_, ih hm⟩
        intro x hx
        rcases Memory.mem_write hx with rfl | hx
        · simp only; omega
        · exact hc x hx

@[simp] theorem Memory.writeRange_nil (m : Memory) (a : Nat) : m.writeRange a [] = m := rfl

/-- Outside the written bytes nothing changes. -/
theorem Memory.read_writeRange_outside (bs : List Byte) :
    ∀ (m : Memory) (a x : Nat), (x < a ∨ a + bs.length ≤ x) → (m.writeRange a bs).read x = m.read x := by
  induction bs with
  | nil => intros; rfl
  | cons b bs ih =>
    intro m a x h
    rw [List.length_cons] at h
    rw [Memory.writeRange, ih _ _ _ (by omega), Memory.read_write_other _ _ (by omega)]

/-- Inside them each byte reads as written. -/
theorem Memory.read_writeRange_inside (bs : List Byte) :
    ∀ (m : Memory) (a k : Nat), k < bs.length → (m.writeRange a bs).read (a + k) = bs[k]? := by
  induction bs with
  | nil => intro m a k h; simp at h
  | cons b bs ih =>
    intro m a k h
    rw [Memory.writeRange]
    cases k with
    | zero =>
      rw [Memory.read_writeRange_outside _ _ _ _ (by omega)]
      simp [Memory.read_write_same]
    | succ k =>
      have := ih (m.write a b) (a + 1) k (by simpa using h)
      rw [show a + (k + 1) = a + 1 + k by omega, this]
      simp

theorem Memory.writeRange_wf (bs : List Byte) :
    ∀ (m : Memory) (a : Nat), m.wf → (m.writeRange a bs).wf := by
  induction bs with
  | nil => intro m a h; exact h
  | cons b bs ih => intro m a h; exact ih _ _ (Memory.write_wf h a b)

theorem Memory.mem_writeRange (bs : List Byte) :
    ∀ (m : Memory) (a : Nat) (c : Host.Cell), c ∈ m.writeRange a bs →
      (a ≤ c.1 ∧ c.1 < a + bs.length) ∨ c ∈ m := by
  induction bs with
  | nil => intro m a c h; exact .inr h
  | cons b bs ih =>
    intro m a c h
    rw [List.length_cons]
    rcases ih _ _ _ h with h | h
    · left; omega
    · rcases Memory.mem_write h with rfl | h
      · left; simp
      · exact .inr h

/-- Every byte of a whole-buffer image. -/
theorem Memory.read_ofBytes (bs : List Byte) :
    ∀ (a k : Nat), (Memory.ofBytes a bs).read (a + k) = bs[k]? := by
  induction bs with
  | nil => intros; rfl
  | cons b bs ih =>
    intro a k
    rw [Memory.ofBytes, Memory.read_cons]
    cases k with
    | zero => simp
    | succ k =>
      have := ih (a + 1) k
      rw [show a + (k + 1) = a + 1 + k by omega, if_neg (by simp only; omega), this]
      simp

theorem Memory.mem_ofBytes (bs : List Byte) :
    ∀ (a : Nat) (c : Host.Cell), c ∈ Memory.ofBytes a bs → a ≤ c.1 ∧ c.1 < a + bs.length := by
  induction bs with
  | nil => intro a c h; simp [Memory.ofBytes] at h
  | cons b bs ih =>
    intro a c h
    rw [List.length_cons]
    rcases List.mem_cons.1 h with rfl | h
    · simp
    · have := ih _ _ h; omega

theorem Memory.ofBytes_wf (bs : List Byte) : ∀ a : Nat, (Memory.ofBytes a bs).wf := by
  induction bs with
  | nil => intro a; exact List.Pairwise.nil
  | cons b bs ih =>
    intro a
    refine List.pairwise_cons.2 ⟨?_, ih (a + 1)⟩
    intro c hc
    have := Memory.mem_ofBytes _ _ _ hc
    simp only; omega

/-- A range reads as bytes exactly when every byte of it has been written. -/
theorem Memory.readRange_eq_some (n : Nat) :
    ∀ (m : Memory) (a : Nat) (bs : List Byte), m.readRange a n = some bs ↔
      bs.length = n ∧ ∀ k, k < n → m.read (a + k) = bs[k]? := by
  induction n with
  | zero => intro m a bs; cases bs <;> simp [Memory.readRange]
  | succ n ih =>
    intro m a bs
    rw [Memory.readRange]
    constructor
    · intro h
      split at h
      · rename_i b bs' hb hbs
        obtain rfl : b :: bs' = bs := by simpa using h
        obtain ⟨hl, hr⟩ := (ih _ _ _).1 hbs
        refine ⟨by simp [hl], ?_⟩
        intro k hk
        cases k with
        | zero => simpa using hb
        | succ k =>
          have := hr k (by omega)
          rw [show a + (k + 1) = a + 1 + k by omega, this]; simp
      · simp at h
    · rintro ⟨hl, hr⟩
      cases bs with
      | nil => simp at hl
      | cons b bs =>
        have h0 : m.read a = some b := by simpa using hr 0 (by omega)
        have h1 : m.readRange (a + 1) n = some bs := by
          refine (ih _ _ _).2 ⟨by simpa using hl, ?_⟩
          intro k hk
          have := hr (k + 1) (by omega)
          rw [show a + 1 + k = a + (k + 1) by omega, this]; simp
        rw [h0, h1]

/-- A range fails to read exactly when some byte of it has not been written. -/
theorem Memory.readRange_eq_none (n : Nat) :
    ∀ (m : Memory) (a : Nat), m.readRange a n = none ↔ ∃ k, k < n ∧ m.read (a + k) = none := by
  induction n with
  | zero => intro m a; simp [Memory.readRange]
  | succ n ih =>
    intro m a
    rw [Memory.readRange]
    constructor
    · intro h
      split at h
      · simp at h
      · rename_i hno
        cases hb : m.read a with
        | none => exact ⟨0, by omega, by simpa using hb⟩
        | some b =>
          cases hbs : m.readRange (a + 1) n with
          | none =>
            obtain ⟨k, hk, hr⟩ := (ih _ _).1 hbs
            exact ⟨k + 1, by omega, by rw [show a + (k + 1) = a + 1 + k by omega]; exact hr⟩
          | some bs => exact absurd hbs (hno b bs hb)
    · rintro ⟨k, hk, hr⟩
      split
      · rename_i b bs hb hbs
        obtain ⟨hl, hall⟩ := (Memory.readRange_eq_some _ _ _ _).1 hbs
        cases k with
        | zero => rw [Nat.add_zero, hb] at hr; simp at hr
        | succ k =>
          have h2 := hall k (by omega)
          rw [show a + 1 + k = a + (k + 1) by omega, hr] at h2
          have : k < bs.length := by omega
          simp [this] at h2
      · rfl

end Sys2Proof.Machine
end

