-- ==== Sys2Proof/Laws/Mix.lean ====
section
/-! SUPPORT. What a mix, a round and an injection do to each word, and that the cipher's words have `W`
bits (spec 43_mix.md). -/

namespace Sys2Proof.Machine

open Sys2Proof

/-- Every word of the vector has `W` bits. -/
abbrev FitsVec {n : Nat} (p : Profile) (v : Vector Word n) : Prop :=
  ∀ (i : Nat) (h : i < n), FitsWord p v[i]

theorem mix_at_a (p : Profile) (v : Vec8) {a b : Fin 8} (h : a ≠ b) (r : Nat) :
    (mix p v a b r)[a] = addW p v[a] v[b] := by
  have : (b : Nat) ≠ a := fun e => h (Fin.ext e.symm)
  simp [mix, this]

theorem mix_at_b (p : Profile) (v : Vec8) (a b : Fin 8) (r : Nat) :
    (mix p v a b r)[b] = rotlW p v[b] r ^^^ addW p v[a] v[b] := by
  simp [mix]

theorem mix_elsewhere (p : Profile) (v : Vec8) {a b x : Fin 8} (ha : x ≠ a) (hb : x ≠ b) (r : Nat) :
    (mix p v a b r)[x] = v[x] := by
  have h1 : (a : Nat) ≠ x := fun e => ha (Fin.ext e.symm)
  have h2 : (b : Nat) ≠ x := fun e => hb (Fin.ext e.symm)
  simp [mix, h1, h2]

theorem fitsVec_set {n : Nat} {p : Profile} {v : Vector Word n} (hv : FitsVec p v) {w : Word}
    (hw : FitsWord p w) (k : Nat) (hk : k < n) : FitsVec p (v.set k w hk) := by
  intro i hi
  simp only [Vector.getElem_set]
  split
  · exact hw
  · exact hv i hi

theorem fitsVec_gen {p : Profile} {f : Fin 8 → Word} (h : ∀ i, FitsWord p (f i)) :
    FitsVec p (Vec8.gen f) := by
  intro i hi
  simpa using h ⟨i, hi⟩

theorem fits_mix {p : Profile} {v : Vec8} (h : FitsVec p v) (a b : Fin 8) (r : Nat) :
    FitsVec p (mix p v a b r) :=
  fitsVec_set (fitsVec_set h (fits_addW p _ _) _ a.isLt) (fits_xor (fits_rotlW p _ _) (fits_addW p _ _)) _ b.isLt

theorem fits_elemRound {p : Profile} {v : Vec8} (h : FitsVec p v) (d : Nat) :
    FitsVec p (elemRound p v d) :=
  fits_mix (fits_mix (fits_mix (fits_mix h _ _ _) _ _ _) _ _ _) _ _ _

/-- Words 0 to 4 get their key word. -/
theorem inject_low (p : Profile) (v : Vec8) (ks : Vector Word 9) (t : Vector Word 3) (s : Nat)
    (i : Nat) (hi : i < 5) :
    (inject p v ks t s)[i] = addW p v[i] (subkeyWord ks s i) := by
  have h5 : (5 : Nat) ≠ i := by omega
  have h6 : (6 : Nat) ≠ i := by omega
  have h7 : (7 : Nat) ≠ i := by omega
  simp [inject, h5, h6, h7]

/-- Word 5 gets its key word and tweak word `s mod 3`. -/
theorem inject_five (p : Profile) (v : Vec8) (ks : Vector Word 9) (t : Vector Word 3) (s : Nat) :
    (inject p v ks t s)[5] = addW p (addW p v[5] (subkeyWord ks s 5)) (tweakWord t s) := by
  simp [inject]

/-- Word 6 gets its key word and tweak word `(s + 1) mod 3`. -/
theorem inject_six (p : Profile) (v : Vec8) (ks : Vector Word 9) (t : Vector Word 3) (s : Nat) :
    (inject p v ks t s)[6] = addW p (addW p v[6] (subkeyWord ks s 6)) (tweakWord t (s + 1)) := by
  simp [inject]

/-- Word 7 gets its key word and the index. -/
theorem inject_seven (p : Profile) (v : Vec8) (ks : Vector Word 9) (t : Vector Word 3) (s : Nat) :
    (inject p v ks t s)[7] = addW p (addW p v[7] (subkeyWord ks s 7)) (BitVec.ofNat 64 s) := by
  simp [inject]

theorem fits_inject (p : Profile) (v : Vec8) (ks : Vector Word 9) (t : Vector Word 3) (s : Nat) :
    FitsVec p (inject p v ks t s) :=
  fitsVec_set (fitsVec_set (fitsVec_set (fitsVec_gen fun _ => fits_addW p _ _)
    (fits_addW p _ _) 5 (by decide)) (fits_addW p _ _) 6 (by decide)) (fits_addW p _ _) 7 (by decide)

/-- The cipher's result fits, whatever its inputs: the last thing it does is an injection. -/
theorem fits_cipher (p : Profile) (ks : Vector Word 9) (t : Vector Word 3) (b : Vec8) :
    FitsVec p (cipher p ks t b) := fits_inject p _ _ _ _

end Sys2Proof.Machine
end

