-- ==== Sys2Proof/Laws/State.lean ====
section
/-! SUPPORT. What each shared update of the state leaves in each field, one lemma per field, so that no
later proof unfolds an update.  Written by one script: every lemma is true by `rfl`. -/

namespace Sys2Proof.Machine

open Sys2Proof

/-! ### `complete` -/

@[simp] theorem complete_inst (e : ErrCode) (s : State) :
    (complete e s).inst = s.inst := rfl
@[simp] theorem complete_cv (e : ErrCode) (s : State) :
    (complete e s).cv = s.cv := rfl
@[simp] theorem complete_iv (e : ErrCode) (s : State) :
    (complete e s).iv = s.iv := rfl
@[simp] theorem complete_blk (e : ErrCode) (s : State) :
    (complete e s).blk = s.blk := rfl
@[simp] theorem complete_v (e : ErrCode) (s : State) :
    (complete e s).v = s.v := rfl
@[simp] theorem complete_ks (e : ErrCode) (s : State) :
    (complete e s).ks = s.ks := rfl
@[simp] theorem complete_t (e : ErrCode) (s : State) :
    (complete e s).t = s.t := rfl
@[simp] theorem complete_pos (e : ErrCode) (s : State) :
    (complete e s).pos = s.pos := rfl
@[simp] theorem complete_len (e : ErrCode) (s : State) :
    (complete e s).len = s.len := rfl
@[simp] theorem complete_cmd (e : ErrCode) (s : State) :
    (complete e s).cmd = s.cmd := rfl
@[simp] theorem complete_status (e : ErrCode) (s : State) :
    (complete e s).status = s.status.complete e := rfl
@[simp] theorem complete_ie (e : ErrCode) (s : State) :
    (complete e s).ie = s.ie := rfl
@[simp] theorem complete_digest (e : ErrCode) (s : State) :
    (complete e s).digest = s.digest := rfl
@[simp] theorem complete_msg (e : ErrCode) (s : State) :
    (complete e s).msg = s.msg := rfl
@[simp] theorem complete_agenda (e : ErrCode) (s : State) :
    (complete e s).agenda = s.agenda := rfl
@[simp] theorem complete_rdata (e : ErrCode) (s : State) :
    (complete e s).rdata = s.rdata := rfl
@[simp] theorem complete_draws (e : ErrCode) (s : State) :
    (complete e s).draws = s.draws := rfl

/-! ### `accept` -/

@[simp] theorem accept_inst (c : Word32) (s : State) :
    (accept c s).inst = s.inst := rfl
@[simp] theorem accept_cv (c : Word32) (s : State) :
    (accept c s).cv = s.cv := rfl
@[simp] theorem accept_iv (c : Word32) (s : State) :
    (accept c s).iv = s.iv := rfl
@[simp] theorem accept_blk (c : Word32) (s : State) :
    (accept c s).blk = s.blk := rfl
@[simp] theorem accept_v (c : Word32) (s : State) :
    (accept c s).v = s.v := rfl
@[simp] theorem accept_ks (c : Word32) (s : State) :
    (accept c s).ks = s.ks := rfl
@[simp] theorem accept_t (c : Word32) (s : State) :
    (accept c s).t = s.t := rfl
@[simp] theorem accept_pos (c : Word32) (s : State) :
    (accept c s).pos = s.pos := rfl
@[simp] theorem accept_len (c : Word32) (s : State) :
    (accept c s).len = s.len := rfl
@[simp] theorem accept_cmd (c : Word32) (s : State) :
    (accept c s).cmd = c := rfl
@[simp] theorem accept_status (c : Word32) (s : State) :
    (accept c s).status = { s.status with done := false, err := .none, busy := true } := rfl
@[simp] theorem accept_ie (c : Word32) (s : State) :
    (accept c s).ie = s.ie := rfl
@[simp] theorem accept_digest (c : Word32) (s : State) :
    (accept c s).digest = s.digest := rfl
@[simp] theorem accept_msg (c : Word32) (s : State) :
    (accept c s).msg = s.msg := rfl
@[simp] theorem accept_agenda (c : Word32) (s : State) :
    (accept c s).agenda = s.agenda := rfl
@[simp] theorem accept_rdata (c : Word32) (s : State) :
    (accept c s).rdata = s.rdata := rfl
@[simp] theorem accept_draws (c : Word32) (s : State) :
    (accept c s).draws = s.draws := rfl

/-! ### `dropWrite` -/

@[simp] theorem dropWrite_inst (s : State) :
    (dropWrite s).inst = s.inst := rfl
@[simp] theorem dropWrite_cv (s : State) :
    (dropWrite s).cv = s.cv := rfl
@[simp] theorem dropWrite_iv (s : State) :
    (dropWrite s).iv = s.iv := rfl
@[simp] theorem dropWrite_blk (s : State) :
    (dropWrite s).blk = s.blk := rfl
@[simp] theorem dropWrite_v (s : State) :
    (dropWrite s).v = s.v := rfl
@[simp] theorem dropWrite_ks (s : State) :
    (dropWrite s).ks = s.ks := rfl
@[simp] theorem dropWrite_t (s : State) :
    (dropWrite s).t = s.t := rfl
@[simp] theorem dropWrite_pos (s : State) :
    (dropWrite s).pos = s.pos := rfl
@[simp] theorem dropWrite_len (s : State) :
    (dropWrite s).len = s.len := rfl
@[simp] theorem dropWrite_cmd (s : State) :
    (dropWrite s).cmd = s.cmd := rfl
@[simp] theorem dropWrite_status (s : State) :
    (dropWrite s).status = { s.status with werr := true } := rfl
@[simp] theorem dropWrite_ie (s : State) :
    (dropWrite s).ie = s.ie := rfl
@[simp] theorem dropWrite_digest (s : State) :
    (dropWrite s).digest = s.digest := rfl
@[simp] theorem dropWrite_msg (s : State) :
    (dropWrite s).msg = s.msg := rfl
@[simp] theorem dropWrite_agenda (s : State) :
    (dropWrite s).agenda = s.agenda := rfl
@[simp] theorem dropWrite_rdata (s : State) :
    (dropWrite s).rdata = s.rdata := rfl
@[simp] theorem dropWrite_draws (s : State) :
    (dropWrite s).draws = s.draws := rfl

/-! ### `ignoreAccess` -/

@[simp] theorem ignoreAccess_inst (s : State) :
    (ignoreAccess s).inst = s.inst := rfl
@[simp] theorem ignoreAccess_cv (s : State) :
    (ignoreAccess s).cv = s.cv := rfl
@[simp] theorem ignoreAccess_iv (s : State) :
    (ignoreAccess s).iv = s.iv := rfl
@[simp] theorem ignoreAccess_blk (s : State) :
    (ignoreAccess s).blk = s.blk := rfl
@[simp] theorem ignoreAccess_v (s : State) :
    (ignoreAccess s).v = s.v := rfl
@[simp] theorem ignoreAccess_ks (s : State) :
    (ignoreAccess s).ks = s.ks := rfl
@[simp] theorem ignoreAccess_t (s : State) :
    (ignoreAccess s).t = s.t := rfl
@[simp] theorem ignoreAccess_pos (s : State) :
    (ignoreAccess s).pos = s.pos := rfl
@[simp] theorem ignoreAccess_len (s : State) :
    (ignoreAccess s).len = s.len := rfl
@[simp] theorem ignoreAccess_cmd (s : State) :
    (ignoreAccess s).cmd = s.cmd := rfl
@[simp] theorem ignoreAccess_status (s : State) :
    (ignoreAccess s).status = { s.status with aerr := true } := rfl
@[simp] theorem ignoreAccess_ie (s : State) :
    (ignoreAccess s).ie = s.ie := rfl
@[simp] theorem ignoreAccess_digest (s : State) :
    (ignoreAccess s).digest = s.digest := rfl
@[simp] theorem ignoreAccess_msg (s : State) :
    (ignoreAccess s).msg = s.msg := rfl
@[simp] theorem ignoreAccess_agenda (s : State) :
    (ignoreAccess s).agenda = s.agenda := rfl
@[simp] theorem ignoreAccess_rdata (s : State) :
    (ignoreAccess s).rdata = s.rdata := rfl
@[simp] theorem ignoreAccess_draws (s : State) :
    (ignoreAccess s).draws = s.draws := rfl

/-! ### `storeIv` -/

@[simp] theorem storeIv_inst (s : State) :
    (storeIv s).inst = s.inst := rfl
@[simp] theorem storeIv_cv (s : State) :
    (storeIv s).cv = s.cv := rfl
@[simp] theorem storeIv_iv (s : State) :
    (storeIv s).iv = s.cv := rfl
@[simp] theorem storeIv_blk (s : State) :
    (storeIv s).blk = s.blk := rfl
@[simp] theorem storeIv_v (s : State) :
    (storeIv s).v = s.v := rfl
@[simp] theorem storeIv_ks (s : State) :
    (storeIv s).ks = s.ks := rfl
@[simp] theorem storeIv_t (s : State) :
    (storeIv s).t = s.t := rfl
@[simp] theorem storeIv_pos (s : State) :
    (storeIv s).pos = s.pos := rfl
@[simp] theorem storeIv_len (s : State) :
    (storeIv s).len = s.len := rfl
@[simp] theorem storeIv_cmd (s : State) :
    (storeIv s).cmd = s.cmd := rfl
@[simp] theorem storeIv_status (s : State) :
    (storeIv s).status = { s.status with ivv := true } := rfl
@[simp] theorem storeIv_ie (s : State) :
    (storeIv s).ie = s.ie := rfl
@[simp] theorem storeIv_digest (s : State) :
    (storeIv s).digest = s.digest := rfl
@[simp] theorem storeIv_msg (s : State) :
    (storeIv s).msg = s.msg := rfl
@[simp] theorem storeIv_agenda (s : State) :
    (storeIv s).agenda = s.agenda := rfl
@[simp] theorem storeIv_rdata (s : State) :
    (storeIv s).rdata = s.rdata := rfl
@[simp] theorem storeIv_draws (s : State) :
    (storeIv s).draws = s.draws := rfl

/-! ### `writeDigest` -/

@[simp] theorem writeDigest_inst (s : State) :
    (writeDigest s).inst = s.inst := rfl
@[simp] theorem writeDigest_cv (s : State) :
    (writeDigest s).cv = s.cv := rfl
@[simp] theorem writeDigest_iv (s : State) :
    (writeDigest s).iv = s.iv := rfl
@[simp] theorem writeDigest_blk (s : State) :
    (writeDigest s).blk = s.blk := rfl
@[simp] theorem writeDigest_v (s : State) :
    (writeDigest s).v = s.v := rfl
@[simp] theorem writeDigest_ks (s : State) :
    (writeDigest s).ks = s.ks := rfl
@[simp] theorem writeDigest_t (s : State) :
    (writeDigest s).t = s.t := rfl
@[simp] theorem writeDigest_pos (s : State) :
    (writeDigest s).pos = s.pos := rfl
@[simp] theorem writeDigest_len (s : State) :
    (writeDigest s).len = s.len := rfl
@[simp] theorem writeDigest_cmd (s : State) :
    (writeDigest s).cmd = s.cmd := rfl
@[simp] theorem writeDigest_status (s : State) :
    (writeDigest s).status = s.status := rfl
@[simp] theorem writeDigest_ie (s : State) :
    (writeDigest s).ie = s.ie := rfl
@[simp] theorem writeDigest_digest (s : State) :
    (writeDigest s).digest = digestImage (formatDigest s.inst.profile s.cv) := rfl
@[simp] theorem writeDigest_msg (s : State) :
    (writeDigest s).msg = s.msg := rfl
@[simp] theorem writeDigest_agenda (s : State) :
    (writeDigest s).agenda = s.agenda := rfl
@[simp] theorem writeDigest_rdata (s : State) :
    (writeDigest s).rdata = s.rdata := rfl
@[simp] theorem writeDigest_draws (s : State) :
    (writeDigest s).draws = s.draws := rfl

/-! ### `hardReset` -/

@[simp] theorem hardReset_inst (s : State) :
    (hardReset s).inst = s.inst := rfl
@[simp] theorem hardReset_cv (s : State) :
    (hardReset s).cv = State.reset.cv := rfl
@[simp] theorem hardReset_iv (s : State) :
    (hardReset s).iv = State.reset.iv := rfl
@[simp] theorem hardReset_blk (s : State) :
    (hardReset s).blk = State.reset.blk := rfl
@[simp] theorem hardReset_v (s : State) :
    (hardReset s).v = State.reset.v := rfl
@[simp] theorem hardReset_ks (s : State) :
    (hardReset s).ks = State.reset.ks := rfl
@[simp] theorem hardReset_t (s : State) :
    (hardReset s).t = State.reset.t := rfl
@[simp] theorem hardReset_pos (s : State) :
    (hardReset s).pos = State.reset.pos := rfl
@[simp] theorem hardReset_len (s : State) :
    (hardReset s).len = State.reset.len := rfl
@[simp] theorem hardReset_cmd (s : State) :
    (hardReset s).cmd = State.reset.cmd := rfl
@[simp] theorem hardReset_status (s : State) :
    (hardReset s).status = State.reset.status := rfl
@[simp] theorem hardReset_ie (s : State) :
    (hardReset s).ie = State.reset.ie := rfl
@[simp] theorem hardReset_digest (s : State) :
    (hardReset s).digest = State.reset.digest := rfl
@[simp] theorem hardReset_msg (s : State) :
    (hardReset s).msg = State.reset.msg := rfl
@[simp] theorem hardReset_agenda (s : State) :
    (hardReset s).agenda = s.agenda := rfl
@[simp] theorem hardReset_rdata (s : State) :
    (hardReset s).rdata = s.rdata := rfl
@[simp] theorem hardReset_draws (s : State) :
    (hardReset s).draws = s.draws := rfl

/-! ### `softReset` -/

@[simp] theorem softReset_inst (s : State) :
    (softReset s).inst = s.inst := rfl
@[simp] theorem softReset_cv (s : State) :
    (softReset s).cv = State.reset.cv := rfl
@[simp] theorem softReset_iv (s : State) :
    (softReset s).iv = State.reset.iv := rfl
@[simp] theorem softReset_blk (s : State) :
    (softReset s).blk = State.reset.blk := rfl
@[simp] theorem softReset_v (s : State) :
    (softReset s).v = State.reset.v := rfl
@[simp] theorem softReset_ks (s : State) :
    (softReset s).ks = State.reset.ks := rfl
@[simp] theorem softReset_t (s : State) :
    (softReset s).t = State.reset.t := rfl
@[simp] theorem softReset_pos (s : State) :
    (softReset s).pos = State.reset.pos := rfl
@[simp] theorem softReset_len (s : State) :
    (softReset s).len = State.reset.len := rfl
@[simp] theorem softReset_cmd (s : State) :
    (softReset s).cmd = State.reset.cmd := rfl
@[simp] theorem softReset_status (s : State) :
    (softReset s).status = State.reset.status := rfl
@[simp] theorem softReset_ie (s : State) :
    (softReset s).ie = State.reset.ie := rfl
@[simp] theorem softReset_digest (s : State) :
    (softReset s).digest = s.digest := rfl
@[simp] theorem softReset_msg (s : State) :
    (softReset s).msg = s.msg := rfl
@[simp] theorem softReset_agenda (s : State) :
    (softReset s).agenda = s.agenda := rfl
@[simp] theorem softReset_rdata (s : State) :
    (softReset s).rdata = s.rdata := rfl
@[simp] theorem softReset_draws (s : State) :
    (softReset s).draws = s.draws := rfl

/-! ### `blockOp` -/

@[simp] theorem blockOp_inst (type : BitVec 6) (first final : Bool) (s : State) :
    (blockOp type first final s).inst = s.inst := rfl
@[simp] theorem blockOp_cv (type : BitVec 6) (first final : Bool) (s : State) :
    (blockOp type first final s).cv = xorVec (blockOp type first final s).v s.blk := rfl
@[simp] theorem blockOp_iv (type : BitVec 6) (first final : Bool) (s : State) :
    (blockOp type first final s).iv = s.iv := rfl
@[simp] theorem blockOp_blk (type : BitVec 6) (first final : Bool) (s : State) :
    (blockOp type first final s).blk = s.blk := rfl
@[simp] theorem blockOp_v (type : BitVec 6) (first final : Bool) (s : State) :
    (blockOp type first final s).v = cipher s.inst.profile (keySchedule s.inst.profile s.cv)
        (tweak s.inst.profile s.pos type first final) s.blk := rfl
@[simp] theorem blockOp_ks (type : BitVec 6) (first final : Bool) (s : State) :
    (blockOp type first final s).ks = keySchedule s.inst.profile s.cv := rfl
@[simp] theorem blockOp_t (type : BitVec 6) (first final : Bool) (s : State) :
    (blockOp type first final s).t = tweak s.inst.profile s.pos type first final := rfl
@[simp] theorem blockOp_pos (type : BitVec 6) (first final : Bool) (s : State) :
    (blockOp type first final s).pos = s.pos := rfl
@[simp] theorem blockOp_len (type : BitVec 6) (first final : Bool) (s : State) :
    (blockOp type first final s).len = s.len := rfl
@[simp] theorem blockOp_cmd (type : BitVec 6) (first final : Bool) (s : State) :
    (blockOp type first final s).cmd = s.cmd := rfl
@[simp] theorem blockOp_status (type : BitVec 6) (first final : Bool) (s : State) :
    (blockOp type first final s).status = s.status := rfl
@[simp] theorem blockOp_ie (type : BitVec 6) (first final : Bool) (s : State) :
    (blockOp type first final s).ie = s.ie := rfl
@[simp] theorem blockOp_digest (type : BitVec 6) (first final : Bool) (s : State) :
    (blockOp type first final s).digest = s.digest := rfl
@[simp] theorem blockOp_msg (type : BitVec 6) (first final : Bool) (s : State) :
    (blockOp type first final s).msg = s.msg := rfl
@[simp] theorem blockOp_agenda (type : BitVec 6) (first final : Bool) (s : State) :
    (blockOp type first final s).agenda = s.agenda := rfl
@[simp] theorem blockOp_rdata (type : BitVec 6) (first final : Bool) (s : State) :
    (blockOp type first final s).rdata = s.rdata := rfl
@[simp] theorem blockOp_draws (type : BitVec 6) (first final : Bool) (s : State) :
    (blockOp type first final s).draws = s.draws := rfl

/-! ### `blockStep` -/

@[simp] theorem blockStep_inst (b : Vec8) (q : BitVec 64) (type : BitVec 6) (first final : Bool)
    (s : State) :
    (blockStep b q type first final s).inst = s.inst := rfl
@[simp] theorem blockStep_cv (b : Vec8) (q : BitVec 64) (type : BitVec 6) (first final : Bool)
    (s : State) :
    (blockStep b q type first final s).cv = xorVec (blockStep b q type first final s).v b := rfl
@[simp] theorem blockStep_iv (b : Vec8) (q : BitVec 64) (type : BitVec 6) (first final : Bool)
    (s : State) :
    (blockStep b q type first final s).iv = s.iv := rfl
@[simp] theorem blockStep_blk (b : Vec8) (q : BitVec 64) (type : BitVec 6) (first final : Bool)
    (s : State) :
    (blockStep b q type first final s).blk = b := rfl
@[simp] theorem blockStep_v (b : Vec8) (q : BitVec 64) (type : BitVec 6) (first final : Bool)
    (s : State) :
    (blockStep b q type first final s).v = cipher s.inst.profile (keySchedule s.inst.profile s.cv)
        (tweak s.inst.profile q type first final) b := rfl
@[simp] theorem blockStep_ks (b : Vec8) (q : BitVec 64) (type : BitVec 6) (first final : Bool)
    (s : State) :
    (blockStep b q type first final s).ks = keySchedule s.inst.profile s.cv := rfl
@[simp] theorem blockStep_t (b : Vec8) (q : BitVec 64) (type : BitVec 6) (first final : Bool)
    (s : State) :
    (blockStep b q type first final s).t = tweak s.inst.profile q type first final := rfl
@[simp] theorem blockStep_pos (b : Vec8) (q : BitVec 64) (type : BitVec 6) (first final : Bool)
    (s : State) :
    (blockStep b q type first final s).pos = q := rfl
@[simp] theorem blockStep_len (b : Vec8) (q : BitVec 64) (type : BitVec 6) (first final : Bool)
    (s : State) :
    (blockStep b q type first final s).len = s.len := rfl
@[simp] theorem blockStep_cmd (b : Vec8) (q : BitVec 64) (type : BitVec 6) (first final : Bool)
    (s : State) :
    (blockStep b q type first final s).cmd = s.cmd := rfl
@[simp] theorem blockStep_status (b : Vec8) (q : BitVec 64) (type : BitVec 6) (first final : Bool)
    (s : State) :
    (blockStep b q type first final s).status = s.status := rfl
@[simp] theorem blockStep_ie (b : Vec8) (q : BitVec 64) (type : BitVec 6) (first final : Bool)
    (s : State) :
    (blockStep b q type first final s).ie = s.ie := rfl
@[simp] theorem blockStep_digest (b : Vec8) (q : BitVec 64) (type : BitVec 6) (first final : Bool)
    (s : State) :
    (blockStep b q type first final s).digest = s.digest := rfl
@[simp] theorem blockStep_msg (b : Vec8) (q : BitVec 64) (type : BitVec 6) (first final : Bool)
    (s : State) :
    (blockStep b q type first final s).msg = s.msg := rfl
@[simp] theorem blockStep_agenda (b : Vec8) (q : BitVec 64) (type : BitVec 6) (first final : Bool)
    (s : State) :
    (blockStep b q type first final s).agenda = s.agenda := rfl
@[simp] theorem blockStep_rdata (b : Vec8) (q : BitVec 64) (type : BitVec 6) (first final : Bool)
    (s : State) :
    (blockStep b q type first final s).rdata = s.rdata := rfl
@[simp] theorem blockStep_draws (b : Vec8) (q : BitVec 64) (type : BitVec 6) (first final : Bool)
    (s : State) :
    (blockStep b q type first final s).draws = s.draws := rfl

/-! ### Status -/

@[simp] theorem Status.complete_busy (st : Status) (e : ErrCode) : (st.complete e).busy = false := rfl
@[simp] theorem Status.complete_done (st : Status) (e : ErrCode) : (st.complete e).done = true := rfl
@[simp] theorem Status.complete_ivv (st : Status) (e : ErrCode) : (st.complete e).ivv = st.ivv := rfl
@[simp] theorem Status.complete_err (st : Status) (e : ErrCode) : (st.complete e).err = e := rfl
@[simp] theorem Status.complete_werr (st : Status) (e : ErrCode) : (st.complete e).werr = st.werr := rfl
@[simp] theorem Status.complete_aerr (st : Status) (e : ErrCode) : (st.complete e).aerr = st.aerr := rfl
@[simp] theorem Status.clear_busy (st : Status) (d : Word32) : (st.clear d).busy = st.busy := rfl
@[simp] theorem Status.clear_done (st : Status) (d : Word32) : (st.clear d).done = (st.done && !d.getLsbD 1) := rfl
@[simp] theorem Status.clear_ivv (st : Status) (d : Word32) : (st.clear d).ivv = st.ivv := rfl
@[simp] theorem Status.clear_err (st : Status) (d : Word32) : (st.clear d).err = st.err := rfl
@[simp] theorem Status.clear_werr (st : Status) (d : Word32) : (st.clear d).werr = (st.werr && !d.getLsbD 8) := rfl
@[simp] theorem Status.clear_aerr (st : Status) (d : Word32) : (st.clear d).aerr = (st.aerr && !d.getLsbD 9) := rfl

end Sys2Proof.Machine
end

