-- ==== Sys2Proof/Laws/Ubi.lean ====
section
/-! SUPPORT. What a UBI call changes and what it depends on (spec 42_ubi.md). -/

namespace Sys2Proof.Machine

open Sys2Proof

theorem nblocks_pos (c : Instance) (L : Nat) : 0 < nblocks c L := by
  simp only [nblocks]; omega

/-- Everything but the step registers CV, BLK, V, KS, T and POS is the same in both states. -/
structure SameOutsideStep (s t : State) : Prop where
  inst : t.inst = s.inst
  iv : t.iv = s.iv
  len : t.len = s.len
  cmd : t.cmd = s.cmd
  status : t.status = s.status
  ie : t.ie = s.ie
  digest : t.digest = s.digest
  msg : t.msg = s.msg
  agenda : t.agenda = s.agenda
  rdata : t.rdata = s.rdata
  draws : t.draws = s.draws

theorem SameOutsideStep.refl (s : State) : SameOutsideStep s s :=
  ⟨rfl, rfl, rfl, rfl, rfl, rfl, rfl, rfl, rfl, rfl, rfl⟩

theorem SameOutsideStep.trans {s t u : State} (h : SameOutsideStep s t) (k : SameOutsideStep t u) :
    SameOutsideStep s u :=
  ⟨k.inst.trans h.inst, k.iv.trans h.iv, k.len.trans h.len, k.cmd.trans h.cmd,
    k.status.trans h.status, k.ie.trans h.ie, k.digest.trans h.digest, k.msg.trans h.msg,
    k.agenda.trans h.agenda, k.rdata.trans h.rdata, k.draws.trans h.draws⟩

theorem blockStep_frame (b : Vec8) (q : BitVec 64) (type : BitVec 6) (first final : Bool) (s : State) :
    SameOutsideStep s (blockStep b q type first final s) :=
  ⟨rfl, rfl, rfl, rfl, rfl, rfl, rfl, rfl, rfl, rfl, rfl⟩

theorem ubiBlocks_frame (type : BitVec 6) (d : List Byte) (N : Nat) (s : State) (k : Nat) :
    SameOutsideStep s (ubiBlocks type d N s k) := by
  induction k with
  | zero => exact SameOutsideStep.refl s
  | succ k ih => exact ih.trans (blockStep_frame _ _ _ _ _ _)

/-- A UBI call changes only the step registers. -/
theorem ubi_frame (type : BitVec 6) (d : List Byte) (s : State) :
    SameOutsideStep s (ubi type d s) := ubiBlocks_frame _ _ _ _ _

@[simp] theorem ubi_inst (type : BitVec 6) (d : List Byte) (s : State) :
    (ubi type d s).inst = s.inst := (ubi_frame type d s).inst

@[simp] theorem configPhase_inst (s : State) : (configPhase s).inst = s.inst := ubi_inst _ _ _

@[simp] theorem outputPhase_inst (s : State) : (outputPhase s).inst = s.inst := ubi_inst _ _ _

theorem configPhase_frame (s : State) : SameOutsideStep s (configPhase s) := ubi_frame _ _ _

/-- OUT_DATA of R159: 8 zero bytes in SK512, and in SK256 whatever the instance has. -/
@[simp] theorem outData_sk512 {c : Instance} (h : c.profile = .sk512) : outData c = List.replicate 8 0x00 := by
  simp [outData, h]

@[simp] theorem outData_sk256 {c : Instance} (h : c.profile = .sk256) : outData c = c.outData32 := by
  simp [outData, h]

theorem outputPhase_frame (s : State) : SameOutsideStep s (outputPhase s) := ubi_frame _ _ _

/-- Block `k` of a UBI call runs on the instance's own block words and position. -/
theorem ubiBlocks_succ (type : BitVec 6) (d : List Byte) (N : Nat) (s : State) (k : Nat) :
    ubiBlocks type d N s (k + 1)
      = blockStep (blockWords s.inst.profile d k) (blockPos s.inst d.length k N) type
          (k == 0) (k + 1 == N) (ubiBlocks type d N s k) := rfl

/-- The chaining value of a UBI call depends on the instance, the data, the tag and CV alone. -/
theorem ubiBlocks_cv_congr {s u : State} (hi : s.inst = u.inst) (hc : s.cv = u.cv) (type : BitVec 6)
    (d : List Byte) (N k : Nat) :
    (ubiBlocks type d N s k).cv = (ubiBlocks type d N u k).cv := by
  induction k with
  | zero => exact hc
  | succ k ih =>
    simp only [ubiBlocks_succ, blockStep_cv, blockStep_v, (ubiBlocks_frame type d N s k).inst,
      (ubiBlocks_frame type d N u k).inst, ih, hi]

theorem ubi_cv_congr {s u : State} (hi : s.inst = u.inst) (hc : s.cv = u.cv) (type : BitVec 6)
    (d : List Byte) : (ubi type d s).cv = (ubi type d u).cv := by
  rw [ubi, ubi, hi]; exact ubiBlocks_cv_congr hi hc _ _ _ _

/-- From the all-zero chaining value the configuration phase gives the instance's initial chaining value. -/
theorem configPhase_initialCv (s : State) :
    (configPhase { s with cv := Vec8.zero }).cv = initialCv s.inst := by
  exact ubi_cv_congr (s := { s with cv := Vec8.zero }) (u := { State.reset with inst := s.inst }) rfl rfl
    tagCfg (cfgData s.inst.profile)

theorem fits_wordsOf (p : Profile) (d : List Byte) : FitsVec p (wordsOf p d) :=
  fitsVec_gen fun _ => fits_leWord (by simp)

theorem fits_blockWords (p : Profile) (d : List Byte) (k : Nat) : FitsVec p (blockWords p d k) :=
  fits_wordsOf _ _

theorem fits_tweak (p : Profile) (q : BitVec 64) (type : BitVec 6) (first final : Bool) :
    FitsVec p (tweak p q type first final) := by
  have h : FitsWord p (tweakPair p q type first final).1 ∧ FitsWord p (tweakPair p q type first final).2 := by
    cases p
    · exact ⟨BitVec.isLt _, BitVec.isLt _⟩
    · constructor <;> simp only [tweakPair, FitsWord, Profile.width, BitVec.toNat_setWidth]
      · have := (Config.tweakMap32 q type first final).1.isLt; omega
      · have := (Config.tweakMap32 q type first final).2.isLt; omega
  intro i hi
  have : i = 0 ∨ i = 1 ∨ i = 2 := by omega
  rcases this with rfl | rfl | rfl
  · exact h.1
  · exact h.2
  · exact fits_xor h.1 h.2

theorem fits_keyParity (p : Profile) : FitsWord p (keyParity p) := by
  cases p
  · exact BitVec.isLt _
  · simp only [keyParity, FitsWord, Profile.width, BitVec.toNat_setWidth]
    have := Config.ksParity32.isLt; omega

theorem fits_keySchedule {p : Profile} {cv : Vec8} (h : FitsVec p cv) : FitsVec p (keySchedule p cv) := by
  have hp : FitsWord p (parity p cv) := by
    unfold parity
    iterate 8 refine fits_xor ?_ (h _ (by decide))
    exact fits_keyParity p
  intro i hi
  have : i = 0 ∨ i = 1 ∨ i = 2 ∨ i = 3 ∨ i = 4 ∨ i = 5 ∨ i = 6 ∨ i = 7 ∨ i = 8 := by omega
  rcases this with rfl | rfl | rfl | rfl | rfl | rfl | rfl | rfl | rfl
  all_goals first | exact hp | exact h _ (by decide)

theorem fits_xorVec {p : Profile} {a b : Vec8} (ha : FitsVec p a) (hb : FitsVec p b) :
    FitsVec p (xorVec a b) := by
  intro i hi
  simpa using fits_xor (ha i hi) (hb i hi)

/-- The words of a UBI call's chaining value fit when it starts from ones that do. -/
theorem fits_ubiBlocks_cv {s : State} (h : FitsVec s.inst.profile s.cv) (type : BitVec 6)
    (d : List Byte) (N k : Nat) : FitsVec s.inst.profile (ubiBlocks type d N s k).cv := by
  cases k with
  | zero => exact h
  | succ k =>
    rw [ubiBlocks_succ, blockStep_cv, blockStep_v, (ubiBlocks_frame type d N s k).inst]
    exact fits_xorVec (fits_cipher _ _ _ _) (fits_blockWords _ _ _)

/-- The step registers of a UBI call fit when it starts from a chaining value that does, and T[2] is the
exclusive-or of T[0] and T[1]. -/
theorem ubi_registers {s : State} (h : FitsVec s.inst.profile s.cv) (type : BitVec 6) (d : List Byte) :
    FitsVec s.inst.profile (ubi type d s).cv ∧ FitsVec s.inst.profile (ubi type d s).blk ∧
    FitsVec s.inst.profile (ubi type d s).v ∧ FitsVec s.inst.profile (ubi type d s).ks ∧
    FitsVec s.inst.profile (ubi type d s).t ∧
    (ubi type d s).t[2] = (ubi type d s).t[0] ^^^ (ubi type d s).t[1] := by
  obtain ⟨k, hk⟩ : ∃ k, nblocks s.inst d.length = k + 1 :=
    Nat.exists_eq_succ_of_ne_zero (nblocks_pos s.inst d.length).ne'
  have hs : ubi type d s = ubiBlocks type d (k + 1) s (k + 1) := by rw [ubi, hk]
  have hf := (ubiBlocks_frame type d (k + 1) s k).inst
  have hcv := fits_ubiBlocks_cv h type d (k + 1) k
  rw [hs, ubiBlocks_succ]
  simp only [blockStep_cv, blockStep_blk, blockStep_v, blockStep_ks, blockStep_t, hf]
  exact ⟨fits_xorVec (fits_cipher _ _ _ _) (fits_blockWords _ _ _), fits_blockWords _ _ _,
    fits_cipher _ _ _ _, fits_keySchedule hcv, fits_tweak _ _ _ _ _, rfl⟩

/-- A UBI call ends where R146 says. -/
theorem ubi_call (type : BitVec 6) (d : List Byte) (s : State) : UbiCall type d s (ubi type d s) := by
  obtain ⟨k, hk⟩ : ∃ k, nblocks s.inst d.length = k + 1 :=
    Nat.exists_eq_succ_of_ne_zero (nblocks_pos s.inst d.length).ne'
  refine ⟨fun j => (ubiBlocks type d (nblocks s.inst d.length) s j).cv, rfl, ?_, ?_⟩
  · intro j hj
    simp only [ubiBlocks_succ, blockStep_cv, blockStep_v, (ubiBlocks_frame _ _ _ _ _).inst]
  · have f := ubiBlocks_frame type d (k + 1) s k
    simp only [hk, Nat.add_sub_cancel]
    rw [show ubi type d s = ubiBlocks type d (k + 1) s (k + 1) by rw [ubi, hk], ubiBlocks_succ]
    generalize ubiBlocks type d (k + 1) s k = u at *
    obtain ⟨h1, h2, h3, h4, h5, h6, h7, h8, h9, h10, h11⟩ := f
    simp only [blockStep, blockOp, h1, h2, h3, h4, h5, h6, h7, h8, h9, h10, h11]

end Sys2Proof.Machine
end

