-- ==== Sys2Proof/Laws/Commands.lean ====
section
/-! SUPPORT. How a command can end, and what no command touches. -/

namespace Sys2Proof.Machine

open Sys2Proof

/-! ## Completion -/

@[simp] theorem finish_eq_next (s t : State) : finish s = .next t ↔ complete .none s = t := by
  simp [finish]

@[simp] theorem raise_eq_next (e : ErrCode) (s t : State) : raise e s = .next t ↔ complete e s = t := by
  simp [raise]

/-! ## The message -/

/-- The input check passes exactly where R105 says. -/
theorem inputError_eq_none (s : State) : inputError s = none ↔ s.LenAccepted := by
  unfold inputError State.LenAccepted
  split
  · simp; omega
  · split
    · simp; omega
    · simp; omega

/-- The error of the input check is one of its two. -/
theorem inputError_eq_some (s : State) (e : ErrCode) : inputError s = some e ↔
    (s.inst.msgMax < s.len.toNat ∧ e = .lenRange) ∨
    (s.len.toNat ≤ s.inst.msgMax ∧ s.len.toNat % 2 = 1 ∧ e = .invalidInput) := by
  unfold inputError
  split
  · rename_i h
    constructor
    · intro he; left; exact ⟨h, by simpa using he.symm⟩
    · rintro (⟨-, rfl⟩ | ⟨h2, -⟩)
      · rfl
      · omega
  · rename_i h
    split
    · rename_i ho
      constructor
      · intro he; right; exact ⟨by omega, ho, by simpa using he.symm⟩
      · rintro (⟨h2, -⟩ | ⟨-, -, rfl⟩)
        · omega
        · rfl
    · rename_i ho
      constructor
      · intro he; simp at he
      · rintro (⟨h2, -⟩ | ⟨-, h2, -⟩) <;> omega

/-- What the engine reads as the message is the message. -/
theorem messageData_eq_some (s : State) (d : List Byte) : messageData s = some d ↔ s.Message d := by
  unfold messageData State.Message
  rw [Memory.readRange_eq_some]
  constructor
  · rintro ⟨hl, h⟩
    refine ⟨hl, fun j hj => ?_⟩
    have := h j hj
    rw [Nat.zero_add] at this
    rw [this, List.getD_eq_getElem?_getD, List.getElem?_eq_getElem (by omega)]; rfl
  · rintro ⟨hl, h⟩
    refine ⟨hl, fun j hj => ?_⟩
    rw [Nat.zero_add, h j hj, List.getD_eq_getElem?_getD, List.getElem?_eq_getElem (by omega)]; rfl

/-- A command on the whole message ends in one of three ways. -/
theorem withMessage_eq_next (s t : State) (f : List Byte → State) : withMessage s f = .next t ↔
    (∃ e, inputError s = some e ∧ complete e s = t) ∨
    (inputError s = none ∧ ∃ d, messageData s = some d ∧ complete .none (f d) = t) := by
  unfold withMessage
  cases h : inputError s with
  | some e => simp
  | none =>
    cases hd : messageData s with
    | none => simp
    | some d => simp

/-- With an accepted length and a written message the command has its effect. -/
theorem withMessage_of_message {s : State} {d : List Byte} (hl : s.LenAccepted) (hd : s.Message d)
    (f : List Byte → State) : withMessage s f = .next (complete .none (f d)) := by
  simp [withMessage, (inputError_eq_none s).2 hl, (messageData_eq_some s d).2 hd, finish]

/-- LOADBLK ends in one of four ways. -/
theorem execLoadblk_eq_next (k : BitVec 8) (s t : State) : execLoadblk k s = .next t ↔
    (∃ e, inputError s = some e ∧ complete e s = t) ∨
    (inputError s = none ∧ nblocks s.inst s.len.toNat ≤ k.toNat ∧ complete .badArg s = t) ∨
    (inputError s = none ∧ k.toNat < nblocks s.inst s.len.toNat ∧
      ∃ d, messageBlock s k.toNat = some d ∧
        complete .none { s with
          blk := wordsOf s.inst.profile d
          pos := blockPos s.inst s.len.toNat k.toNat (nblocks s.inst s.len.toNat) } = t) := by
  unfold execLoadblk
  cases h : inputError s with
  | some e => simp
  | none =>
    by_cases hk : nblocks s.inst s.len.toNat ≤ k.toNat
    · simp [hk]
    · cases hd : messageBlock s k.toNat with
      | none => simp [hk]
      | some d => simp [hk, Nat.lt_of_not_le hk]

/-! ## What no command touches -/

/-- What every command leaves alone before its completion: the instance, LEN, CMD, CTRL, MSG, the sticky
bits, a valid IV, and what the model holds of the outside world. -/
structure EngineKeeps (s u : State) : Prop where
  inst : u.inst = s.inst
  len : u.len = s.len
  cmd : u.cmd = s.cmd
  ie : u.ie = s.ie
  msg : u.msg = s.msg
  agenda : u.agenda = s.agenda
  rdata : u.rdata = s.rdata
  draws : u.draws = s.draws
  werr : u.status.werr = s.status.werr
  aerr : u.status.aerr = s.status.aerr
  valid_iv : s.status.ivv = true → u.iv = s.iv ∧ u.status.ivv = true

theorem EngineKeeps.refl (s : State) : EngineKeeps s s :=
  ⟨rfl, rfl, rfl, rfl, rfl, rfl, rfl, rfl, rfl, rfl, fun h => ⟨rfl, h⟩⟩

theorem EngineKeeps.trans {s t u : State} (h : EngineKeeps s t) (k : EngineKeeps t u) : EngineKeeps s u :=
  ⟨k.inst.trans h.inst, k.len.trans h.len, k.cmd.trans h.cmd, k.ie.trans h.ie, k.msg.trans h.msg,
    k.agenda.trans h.agenda, k.rdata.trans h.rdata, k.draws.trans h.draws, k.werr.trans h.werr,
    k.aerr.trans h.aerr,
    fun v => ⟨((k.valid_iv (h.valid_iv v).2).1).trans (h.valid_iv v).1, (k.valid_iv (h.valid_iv v).2).2⟩⟩

theorem SameOutsideStep.keeps {s u : State} (h : SameOutsideStep s u) : EngineKeeps s u :=
  ⟨h.inst, h.len, h.cmd, h.ie, h.msg, h.agenda, h.rdata, h.draws, by rw [h.status], by rw [h.status],
    fun v => ⟨h.iv, by rw [h.status]; exact v⟩⟩

theorem complete_keeps (e : ErrCode) (s : State) : EngineKeeps s (complete e s) :=
  ⟨rfl, rfl, rfl, rfl, rfl, rfl, rfl, rfl, rfl, rfl, fun h => ⟨rfl, h⟩⟩

/-- A change of step registers and DIGEST only. -/
theorem keeps_registers (s : State) (cv blk v : Vec8) (ks : Vector Word 9) (t : Vector Word 3)
    (pos : BitVec 64) (digest : Memory) :
    EngineKeeps s { s with cv := cv, blk := blk, v := v, ks := ks, t := t, pos := pos, digest := digest } :=
  ⟨rfl, rfl, rfl, rfl, rfl, rfl, rfl, rfl, rfl, rfl, fun h => ⟨rfl, h⟩⟩

theorem withMessage_keeps {s t : State} {f : List Byte → State} (hf : ∀ d, EngineKeeps s (f d))
    (h : withMessage s f = .next t) : EngineKeeps s t := by
  rcases (withMessage_eq_next s t f).1 h with ⟨e, -, rfl⟩ | ⟨-, d, -, rfl⟩
  · exact complete_keeps e s
  · exact (hf d).trans (complete_keeps _ _)

theorem finish_keeps {s t u : State} (hu : EngineKeeps s u) (h : finish u = .next t) : EngineKeeps s t := by
  rw [finish_eq_next] at h; subst h; exact hu.trans (complete_keeps _ _)

theorem raise_keeps {s t : State} {e : ErrCode} (h : raise e s = .next t) : EngineKeeps s t := by
  rw [raise_eq_next] at h; subst h; exact complete_keeps _ _

theorem writeDigest_keeps (s : State) : EngineKeeps s (writeDigest s) :=
  keeps_registers s s.cv s.blk s.v s.ks s.t s.pos _

theorem hash_keeps (s : State) (d : List Byte) :
    EngineKeeps s (writeDigest (outputPhase (ubi tagMsg d { s with cv := s.iv }))) := by
  have h1 : EngineKeeps s { s with cv := s.iv } := keeps_registers s s.iv s.blk s.v s.ks s.t s.pos s.digest
  have h2 := (ubi_frame tagMsg d { s with cv := s.iv }).keeps
  have h3 := (outputPhase_frame (ubi tagMsg d { s with cv := s.iv })).keeps
  exact ((h1.trans h2).trans h3).trans (writeDigest_keeps _)

/-- An IV not yet valid may be stored; everything else is kept. -/
theorem init_keeps {s : State} (hv : s.status.ivv = false) :
    EngineKeeps s (storeIv (configPhase { s with cv := Vec8.zero })) := by
  have h := configPhase_frame { s with cv := Vec8.zero }
  exact ⟨h.inst, h.len, h.cmd, h.ie, h.msg, h.agenda, h.rdata, h.draws,
    by rw [storeIv_status, h.status],
    by rw [storeIv_status, h.status],
    fun v => absurd v (by simp [hv])⟩

/-- Whatever command the engine executes, it keeps all of that. -/
theorem exec_keeps {i : Instr} {s t : State} (h : exec i s = .next t) : EngineKeeps s t := by
  have regs := fun cv blk v ks t pos digest => keeps_registers s cv blk v ks t pos digest
  cases i with
  | nop => exact finish_keeps (EngineKeeps.refl s) h
  | init =>
    by_cases hv : s.status.ivv
    · exact finish_keeps (EngineKeeps.refl s) (by simpa [exec, execInit, hv] using h)
    · have hv : s.status.ivv = false := by simpa using hv
      exact finish_keeps (init_keeps hv) (by simpa [exec, execInit, hv] using h)
  | hash =>
    by_cases hv : s.status.ivv
    · exact withMessage_keeps (hash_keeps s) (by simpa [exec, execHash, hv] using h)
    · exact raise_keeps (e := .noIv) (by simpa [exec, execHash, hv] using h)
  | loadiv =>
    by_cases hv : s.status.ivv
    · exact finish_keeps (regs s.iv _ _ _ _ _ _) (by simpa [exec, execLoadiv, hv] using h)
    · exact raise_keeps (e := .noIv) (by simpa [exec, execLoadiv, hv] using h)
  | clearcv => exact finish_keeps (regs _ _ _ _ _ _ _) h
  | ubi type => exact withMessage_keeps (fun d => (ubi_frame type d s).keeps) h
  | config => exact finish_keeps (configPhase_frame s).keeps h
  | output => exact finish_keeps (outputPhase_frame s).keeps h
  | format => exact finish_keeps (regs _ _ _ _ _ _ _) h
  | gfold => exact withMessage_keeps (fun d => regs _ _ _ _ _ _ _) h
  | loadblk k =>
    rcases (execLoadblk_eq_next k s t).1 h with ⟨e, -, rfl⟩ | ⟨-, -, rfl⟩ | ⟨-, -, d, -, rfl⟩
    · exact complete_keeps _ _
    · exact complete_keeps _ _
    · exact (regs _ _ _ _ _ _ _).trans (complete_keeps _ _)
  | ksched => exact finish_keeps (regs _ _ _ _ _ _ _) h
  | tweak type first final => exact finish_keeps (regs _ _ _ _ _ _ _) h
  | vload => exact finish_keeps (regs _ _ _ _ _ _ _) h
  | inject n => exact finish_keeps (regs _ _ _ _ _ _ _) h
  | round d => exact finish_keeps (regs _ _ _ _ _ _ _) h
  | encrypt => exact finish_keeps (regs _ _ _ _ _ _ _) h
  | feedfwd => exact finish_keeps (regs _ _ _ _ _ _ _) h
  | block type first final => exact finish_keeps (regs _ _ _ _ _ _ _) h

end Sys2Proof.Machine
end

