-- ==== Sys2Proof/Laws/Format.lean ====
section
/-! SUPPORT. Where each character of a formatted digest stands, and the padder of the plug-in port (spec
41_engine.md sections 6 to 8). -/

namespace Sys2Proof.Machine

open Sys2Proof

theorem hexWords_eq (p : Profile) (ws : List Word) :
    hexWords p ws = (ws.flatMap (leBytes p)).flatMap hexByte := by
  unfold hexWords; rw [List.flatMap_assoc]

/-- Pieces of two characters each: piece `n` stands at `2n` and `2n + 1`. -/
theorem flatMap_pair {α : Type} (f : α → List Byte) (hf : ∀ x, (f x).length = 2) (l : List α) :
    ∀ (n : Nat) (h : n < l.length),
      (l.flatMap f)[2 * n]? = (f l[n])[0]? ∧ (l.flatMap f)[2 * n + 1]? = (f l[n])[1]? := by
  induction l with
  | nil => intro n h; simp at h
  | cons a l ih =>
    intro n h
    rw [List.flatMap_cons]
    have := hf a
    cases n with
    | zero => rw [List.getElem?_append_left (by omega), List.getElem?_append_left (by omega)]; simp
    | succ n =>
      have := ih n (by simpa using h)
      rw [List.getElem?_append_right (by omega), List.getElem?_append_right (by omega), hf a,
        show 2 * (n + 1) - 2 = 2 * n by omega, show 2 * (n + 1) + 1 - 2 = 2 * n + 1 by omega]
      simpa using this

/-- Byte `b` of word `i` is byte `i*(W/8) + b` of the words' bytes. -/
theorem flatMap_leBytes (p : Profile) (ws : List Word) :
    ∀ (i b : Nat) (h : i < ws.length), b < p.wordBytes →
      (ws.flatMap (leBytes p))[i * p.wordBytes + b]? = some (byteOf ws[i] b) := by
  have hl : ∀ w, (leBytes p w).length = p.wordBytes := by intro w; simp [leBytes]
  induction ws with
  | nil => intro i b h; simp at h
  | cons a l ih =>
    intro i b h hb
    rw [List.flatMap_cons]
    cases i with
    | zero => rw [List.getElem?_append_left (by rw [hl]; omega)]; simp [leBytes, hb]
    | succ i =>
      rw [List.getElem?_append_right (by rw [hl, Nat.add_mul]; omega), hl,
        show (i + 1) * p.wordBytes + b - p.wordBytes = i * p.wordBytes + b by rw [Nat.add_mul]; omega]
      simpa using ih i b (by simpa using h) hb

theorem flatMap_leBytes_length (p : Profile) (ws : List Word) :
    (ws.flatMap (leBytes p)).length = ws.length * p.wordBytes := by
  induction ws with
  | nil => simp
  | cons a l ih => rw [List.flatMap_cons, List.length_append, ih]; simp [leBytes, Nat.add_mul]; omega

theorem flatMap_hexByte_length (l : List Byte) : (l.flatMap hexByte).length = 2 * l.length := by
  induction l with
  | nil => simp
  | cons a l ih => rw [List.flatMap_cons, List.length_append, ih]; simp [hexByte]; omega

/-- Every byte of a DIGEST image: a character, or 0 after the last one (R121). -/
theorem digestImage_read {cs : List Byte} (h : cs.length ≤ 128) {j : Nat} (hj : j < 128) :
    (digestImage cs).read j = some (cs.getD j 0) := by
  unfold digestImage
  have := Memory.read_ofBytes ((cs ++ List.replicate digestSize 0x00).take digestSize) 0 j
  rw [Nat.zero_add] at this
  rw [this, List.getElem?_take_of_lt (show j < digestSize from hj)]
  by_cases hc : j < cs.length
  · rw [List.getElem?_append_left hc, List.getD_eq_getElem?_getD, List.getElem?_eq_getElem hc]; rfl
  · rw [List.getElem?_append_right (by omega), List.getElem?_replicate,
      if_pos (by unfold digestSize; omega), List.getD_eq_getElem?_getD,
      List.getElem?_eq_none (by omega)]
    rfl

/-- The padding length gives the residue, and is below the block size (R122). -/
theorem padLength_spec {BB : Nat} (hB : 0 < BB) (residue n : Nat) :
    (n + padLength BB residue n) % BB = residue % BB ∧ padLength BB residue n < BB := by
  unfold padLength
  have h1 := Nat.mod_lt residue hB
  have h2 := Nat.mod_lt n hB
  refine ⟨?_, Nat.mod_lt _ hB⟩
  rw [Nat.add_mod_mod, ← Nat.mod_add_mod,
    show n % BB + (residue % BB + BB - n % BB) = residue % BB + BB by omega, Nat.add_mod_right,
    Nat.mod_mod]

theorem gBlockWords_pos (p : Profile) : 0 < gBlockWords p := by unfold gBlockWords; omega

theorem gBlockBytes_pos (p : Profile) : 0 < gBlockBytes p :=
  Nat.mul_pos (Nat.succ_pos _) (Nat.mul_pos (gBlockWords_pos p) (wordBytes_pos p))

/-- The padded message is a whole number of `G_BB` bytes (R122). -/
theorem length_padG_mod (p : Profile) (m : List Byte) : (padG p m).length % gBlockBytes p = 0 := by
  have h := (padLength_spec (gBlockBytes_pos p) 0 (pad80 p m).length).1
  simp only [padG, gTail, List.length_append, List.length_map, List.length_range]
  rw [← Nat.add_assoc, Nat.add_mul_mod_self_right, h, Nat.zero_mod]

@[simp] theorem length_toWordsG (p : Profile) (d : List Byte) :
    (toWordsG p d).length = d.length / p.wordBytes := by
  unfold toWordsG toWords; split <;> simp

/-- So its words are a whole number of blocks: `|w|/G_BW` of R125 is exact. -/
theorem length_toWordsG_padG (p : Profile) (m : List Byte) :
    (toWordsG p (padG p m)).length % gBlockWords p = 0 := by
  obtain ⟨n, hn⟩ := Nat.dvd_of_mod_eq_zero (length_padG_mod p m)
  rw [length_toWordsG, hn, gBlockBytes,
    show (Config.gPadBlocksLess1 p + 1) * (gBlockWords p * p.wordBytes) * n
      = gBlockWords p * ((Config.gPadBlocksLess1 p + 1) * n) * p.wordBytes by ring,
    Nat.mul_div_cancel _ (wordBytes_pos p), Nat.mul_mod_right]

end Sys2Proof.Machine
end

