-- ==== Sys2Proof/Laws/PerInstr.lean ====
section
/-! SUPPORT. Facts about every instruction as syntax, one lemma per constructor. -/

namespace Sys2Proof

/-- Every field of a word that `assemble` puts together reads back as it was given (R70, R79). -/
theorem assemble_fields (op : BitVec 8) (type : BitVec 6) (arg : BitVec 8) (first final : Bool) :
    fieldOp (assemble op type arg first final) = op ∧
    fieldType (assemble op type arg first final) = type ∧
    fieldRsv0 (assemble op type arg first final) = 0 ∧
    fieldArg (assemble op type arg first final) = arg ∧
    fieldFirst (assemble op type arg first final) = first ∧
    fieldFinal (assemble op type arg first final) = final ∧
    fieldRsv1 (assemble op type arg first final) = 0 := by
  refine ⟨?_, ?_, ?_, ?_, ?_, ?_, ?_⟩
  · ext i hi
    interval_cases i <;> simp [fieldOp, assemble]
  · ext i hi
    interval_cases i <;> simp [fieldType, assemble]
  · ext i hi
    interval_cases i <;> simp [fieldRsv0, assemble]
  · ext i hi
    interval_cases i <;> simp [fieldArg, assemble]
  · simp [fieldFirst, assemble]
  · simp [fieldFinal, assemble]
  · ext i hi
    interval_cases i <;> simp [fieldRsv1, assemble]

/-- A word is put together from its own fields when its reserved fields are 0. -/
theorem assemble_of_fields (w : Word32) (h0 : fieldRsv0 w = 0) (h1 : fieldRsv1 w = 0) :
    assemble (fieldOp w) (fieldType w) (fieldArg w) (fieldFirst w) (fieldFinal w) = w := by
  have r14 : w[14] = false := by simpa [fieldRsv0] using congrArg (·.getLsbD 0) h0
  have r15 : w[15] = false := by simpa [fieldRsv0] using congrArg (·.getLsbD 1) h0
  have r26 : w[26] = false := by simpa [fieldRsv1] using congrArg (·.getLsbD 0) h1
  have r27 : w[27] = false := by simpa [fieldRsv1] using congrArg (·.getLsbD 1) h1
  have r28 : w[28] = false := by simpa [fieldRsv1] using congrArg (·.getLsbD 2) h1
  have r29 : w[29] = false := by simpa [fieldRsv1] using congrArg (·.getLsbD 3) h1
  have r30 : w[30] = false := by simpa [fieldRsv1] using congrArg (·.getLsbD 4) h1
  have r31 : w[31] = false := by simpa [fieldRsv1] using congrArg (·.getLsbD 5) h1
  ext i hi
  interval_cases i <;>
    simp [assemble, fieldOp, fieldType, fieldArg, fieldFirst, fieldFinal, r14, r15, r26, r27, r28, r29,
      r30, r31]

namespace Laws.WordFields

/-- The word of a command carries its opcode, and 0 in both reserved fields (R74). -/
def Statement (i : Instr) : Prop :=
  fieldOp (encode i) = i.opcode ∧ fieldRsv0 (encode i) = 0 ∧ fieldRsv1 (encode i) = 0

theorem of_assemble (op : BitVec 8) (type : BitVec 6) (arg : BitVec 8) (first final : Bool) :
    fieldOp (assemble op type arg first final) = op ∧
    fieldRsv0 (assemble op type arg first final) = 0 ∧
    fieldRsv1 (assemble op type arg first final) = 0 :=
  have h := assemble_fields op type arg first final
  ⟨h.1, h.2.2.1, h.2.2.2.2.2.2⟩

theorem nop : Statement .nop := of_assemble _ _ _ _ _
theorem init : Statement .init := of_assemble _ _ _ _ _
theorem hash : Statement .hash := of_assemble _ _ _ _ _
theorem loadiv : Statement .loadiv := of_assemble _ _ _ _ _
theorem clearcv : Statement .clearcv := of_assemble _ _ _ _ _
theorem ubi (type : BitVec 6) : Statement (.ubi type) := of_assemble _ _ _ _ _
theorem config : Statement .config := of_assemble _ _ _ _ _
theorem output : Statement .output := of_assemble _ _ _ _ _
theorem format : Statement .format := of_assemble _ _ _ _ _
theorem gfold : Statement .gfold := of_assemble _ _ _ _ _
theorem loadblk (k : BitVec 8) : Statement (.loadblk k) := of_assemble _ _ _ _ _
theorem ksched : Statement .ksched := of_assemble _ _ _ _ _
theorem tweak (type : BitVec 6) (first final : Bool) : Statement (.tweak type first final) := of_assemble _ _ _ _ _
theorem vload : Statement .vload := of_assemble _ _ _ _ _
theorem inject (s : BitVec 8) : Statement (.inject s) := of_assemble _ _ _ _ _
theorem round (d : BitVec 8) : Statement (.round d) := of_assemble _ _ _ _ _
theorem encrypt : Statement .encrypt := of_assemble _ _ _ _ _
theorem feedfwd : Statement .feedfwd := of_assemble _ _ _ _ _
theorem block (type : BitVec 6) (first final : Bool) : Statement (.block type first final) := of_assemble _ _ _ _ _

end Laws.WordFields

end Sys2Proof
end

