-- ==== Sys2Proof/Laws/Window.lean ====
section
/-! SUPPORT. What a host access can do to the engine, said once (spec 20_memory.md, 10_state.md section 5). -/

namespace Sys2Proof.Machine

open Sys2Proof

theorem windowOffset_eq_some (c : Instance) (addr off : Nat) :
    windowOffset c addr = some off ↔ addr = c.base + off ∧ off < windowSize c := by
  unfold windowOffset
  split
  · simp only [Option.some.injEq]; omega
  · simp only [reduceCtorEq, false_iff]; omega

theorem windowOffset_eq_none (c : Instance) (addr : Nat) :
    windowOffset c addr = none ↔ addr < c.base ∨ c.base + windowSize c ≤ addr := by
  unfold windowOffset
  split
  · simp only [reduceCtorEq, false_iff]; omega
  · simp only [true_iff]; omega

@[simp] theorem hostRead_of_legal {off : Nat} {size : Size} (h : legalAccess off size = true) (s : State) :
    hostRead off size s = { s with rdata := readValue s off size, draws := s.draws + 1 } := by
  simp [hostRead, h]

@[simp] theorem hostRead_of_illegal {off : Nat} {size : Size} (h : legalAccess off size = false) (s : State) :
    hostRead off size s = { ignoreAccess s with rdata := 0, draws := s.draws + 1 } := by
  simp [hostRead, h]

@[simp] theorem hostWrite_of_legal {off : Nat} {size : Size} (h : legalAccess off size = true) (d : Word32)
    (s : State) : hostWrite off size d s = writeTarget size d s (locate off) := by
  simp [hostWrite, h]

@[simp] theorem hostWrite_of_illegal {off : Nat} {size : Size} (h : legalAccess off size = false)
    (d : Word32) (s : State) : hostWrite off size d s = ignoreAccess s := by
  simp [hostWrite, h]

@[simp] theorem whenIdle_of_busy {s : State} (h : s.status.busy = true) (f : State) :
    whenIdle s f = dropWrite s := by
  simp [whenIdle, h]

@[simp] theorem whenIdle_of_idle {s : State} (h : s.status.busy = false) (f : State) :
    whenIdle s f = f := by
  simp [whenIdle, h]

/-- A host read changes what the host got, the count of reads, and at most AERR. -/
theorem hostRead_cases (off : Nat) (size : Size) (s : State) :
    ∃ r, hostRead off size s = { s with rdata := r, draws := s.draws + 1 } ∨
      hostRead off size s = { ignoreAccess s with rdata := r, draws := s.draws + 1 } := by
  cases h : legalAccess off size
  · exact ⟨0, .inr (by simp [h])⟩
  · exact ⟨_, .inl (hostRead_of_legal h s)⟩

/-- Every way a host write can change the engine, with the conditions under which it does. -/
inductive WriteEffect (s : State) : State → Prop where
  | none : WriteEffect s s
  | drop (h : s.status.busy = true) : WriteEffect s (dropWrite s)
  | ignore : WriteEffect s (ignoreAccess s)
  | issue (h : s.status.busy = false) (c : Word32) : WriteEffect s (issue c s)
  | clear (d : Word32) : WriteEffect s { s with status := s.status.clear d }
  | reset : WriteEffect s (softReset s)
  | ie (b : Bool) : WriteEffect s { s with ie := b }
  | len (h : s.status.busy = false) (d : Word32) : WriteEffect s { s with len := d }
  | pos (h : s.status.busy = false) (q : BitVec 64) : WriteEffect s { s with pos := q }
  | cv (h : s.status.busy = false) (i : Fin 8) (high : Bool) (d : Word32) :
      WriteEffect s { s with cv := s.cv.set i (setWordHalf s.inst.profile high s.cv[i] d) }
  | blk (h : s.status.busy = false) (i : Fin 8) (high : Bool) (d : Word32) :
      WriteEffect s { s with blk := s.blk.set i (setWordHalf s.inst.profile high s.blk[i] d) }
  | msg (h : s.status.busy = false) (j : Nat) (bs : List Byte)
      (size : bs.length = 1 ∨ bs.length = 2 ∨ bs.length = 4) (aligned : j % bs.length = 0) :
      WriteEffect s { s with msg := s.msg.writeRange j bs }

theorem Size.bytes_cases (size : Size) : size.bytes = 1 ∨ size.bytes = 2 ∨ size.bytes = 4 := by
  cases size <;> simp [Size.bytes]

theorem controlTarget_ne_msg (n j : Nat) : controlTarget n ≠ .msg j := by
  unfold controlTarget; split <;> exact Target.noConfusion

theorem slotTarget_ne_msg (off j : Nat) : slotTarget off ≠ .msg j := by
  unfold slotTarget; repeat' split
  all_goals exact Target.noConfusion

/-- An offset that names a byte of MSG. -/
theorem locate_eq_msg (off j : Nat) : locate off = .msg j ↔ off = msgBase + j := by
  have hb : msgBase = 0x1000 := rfl
  unfold locate
  by_cases h1 : off < 0x040
  · rw [if_pos h1]; exact ⟨fun h => absurd h (controlTarget_ne_msg _ _), fun h => by omega⟩
  rw [if_neg h1]
  by_cases h2 : off < 0x200
  · rw [if_pos h2]; exact ⟨fun h => absurd h (slotTarget_ne_msg _ _), fun h => by omega⟩
  rw [if_neg h2]
  by_cases h3 : off < 0x280
  · rw [if_pos h3]; exact ⟨fun h => Target.noConfusion h, fun h => by omega⟩
  rw [if_neg h3]
  by_cases h4 : off < 0x1000
  · rw [if_pos h4]; exact ⟨fun h => Target.noConfusion h, fun h => by omega⟩
  rw [if_neg h4]
  constructor
  · intro h
    have : off - msgBase = j := Target.msg.inj h
    omega
  · intro h
    rw [h, Nat.add_sub_cancel_left]

theorem ignoreSlot_effect (high : Bool) (s : State) : WriteEffect s (ignoreSlot high s) := by
  unfold ignoreSlot
  split
  · exact .none
  · exact .ignore

/-- What a host write does is one of those. -/
theorem hostWrite_effect (off : Nat) (size : Size) (d : Word32) (s : State) :
    WriteEffect s (hostWrite off size d s) := by
  cases hl : legalAccess off size
  · rw [hostWrite_of_illegal hl]; exact .ignore
  rw [hostWrite_of_legal hl]
  have idle : ∀ f, (s.status.busy = false → WriteEffect s f) → WriteEffect s (whenIdle s f) := by
    intro f hf
    cases hb : s.status.busy
    · rw [whenIdle_of_idle hb]; exact hf hb
    · rw [whenIdle_of_busy hb]; exact .drop hb
  cases ht : locate off with
  | cmd => exact idle _ fun h => .issue h d
  | status => exact .clear d
  | ctrl =>
    simp only [writeTarget, writeCtrl]
    split
    · exact .reset
    · exact .ie _
  | len => exact idle _ fun h => .len h d
  | posLo => exact idle _ fun h => .pos h _
  | posHi => exact idle _ fun h => .pos h _
  | id => exact .ignore
  | msgMax => exact .ignore
  | cv i high => exact idle _ fun h => .cv h i high d
  | iv i high => exact ignoreSlot_effect high s
  | blk i high => exact idle _ fun h => .blk h i high d
  | v i high => exact ignoreSlot_effect high s
  | ks i high => exact ignoreSlot_effect high s
  | t i high => exact ignoreSlot_effect high s
  | digest j => exact .ignore
  | msg j =>
    refine idle _ fun h => .msg h j _ (by simpa using size.bytes_cases) ?_
    have ho := (locate_eq_msg off j).1 ht
    have hoff : ¬ off < digestBase := by unfold digestBase; unfold msgBase at *; omega
    have ha : off % size.bytes = 0 := by simpa [legalAccess, hoff] using hl
    have hlen : ((List.range size.bytes).map (busByte d)).length = size.bytes := by simp
    rw [hlen]
    rcases size.bytes_cases with hs | hs | hs <;> rw [hs] at ha ⊢ <;> unfold msgBase at ho <;> omega
  | reserved => exact .none

/-- A host write changes no byte of MSG beyond the window. -/
theorem hostWrite_msg_range {off : Nat} {size : Size} {d : Word32} {s : State}
    (hw : s.inst.msgMax % 64 = 0) (ho : off < windowSize s.inst)
    (hm : ∀ c ∈ s.msg, c.1 < s.inst.msgMax) :
    ∀ c ∈ (hostWrite off size d s).msg, c.1 < s.inst.msgMax := by
  cases hl : legalAccess off size
  · rw [hostWrite_of_illegal hl]; exact hm
  cases ht : locate off with
  | msg j =>
    rw [hostWrite_of_legal hl, ht]
    have h1 := (locate_eq_msg off j).1 ht
    simp only [writeTarget]
    cases hb : s.status.busy
    · rw [whenIdle_of_idle hb]
      intro c hc
      have hoff : ¬ off < digestBase := by unfold digestBase; unfold msgBase at *; omega
      have ha : off % size.bytes = 0 := by simpa [legalAccess, hoff] using hl
      unfold windowSize at ho
      unfold msgBase at h1 ho
      rcases Memory.mem_writeRange _ _ _ _ hc with h | h
      · rw [List.length_map, List.length_range] at h
        rcases size.bytes_cases with hs | hs | hs <;> rw [hs] at ha h <;> omega
      · exact hm c h
    · rw [whenIdle_of_busy hb]; exact hm
  | _ =>
    rw [hostWrite_of_legal hl, ht]
    simp only [writeTarget]
    first
      | exact hm
      | (unfold ignoreSlot; split <;> exact hm)
      | (unfold writeCtrl; split <;> exact hm)
      | (unfold whenIdle; split
         · exact hm
         · first
           | exact hm
           | (unfold issue; split <;> exact hm))

/-! ## Which register an offset names (R53, R55), with the access legal there (R54) -/

/-- The half `h` of the slot of `CV[i]`. -/
theorem locate_cv {i h : Nat} (hi : i < 8) (hh : h < 2) :
    legalAccess (0x040 + 8 * i + 4 * h) .word = true ∧
      locate (0x040 + 8 * i + 4 * h) = .cv ⟨i, hi⟩ (h == 1) := by
  interval_cases i <;> interval_cases h <;> exact ⟨rfl, rfl⟩

/-- The half `h` of the slot of `IV[i]`. -/
theorem locate_iv {i h : Nat} (hi : i < 8) (hh : h < 2) :
    legalAccess (0x080 + 8 * i + 4 * h) .word = true ∧
      locate (0x080 + 8 * i + 4 * h) = .iv ⟨i, hi⟩ (h == 1) := by
  interval_cases i <;> interval_cases h <;> exact ⟨rfl, rfl⟩

/-- The half `h` of the slot of `BLK[i]`. -/
theorem locate_blk {i h : Nat} (hi : i < 8) (hh : h < 2) :
    legalAccess (0x0C0 + 8 * i + 4 * h) .word = true ∧
      locate (0x0C0 + 8 * i + 4 * h) = .blk ⟨i, hi⟩ (h == 1) := by
  interval_cases i <;> interval_cases h <;> exact ⟨rfl, rfl⟩

/-- The half `h` of the slot of `V[i]`. -/
theorem locate_v {i h : Nat} (hi : i < 8) (hh : h < 2) :
    legalAccess (0x100 + 8 * i + 4 * h) .word = true ∧
      locate (0x100 + 8 * i + 4 * h) = .v ⟨i, hi⟩ (h == 1) := by
  interval_cases i <;> interval_cases h <;> exact ⟨rfl, rfl⟩

/-- The half `h` of the slot of `KS[i]`. -/
theorem locate_ks {i h : Nat} (hi : i < 9) (hh : h < 2) :
    legalAccess (0x140 + 8 * i + 4 * h) .word = true ∧
      locate (0x140 + 8 * i + 4 * h) = .ks ⟨i, hi⟩ (h == 1) := by
  interval_cases i <;> interval_cases h <;> exact ⟨rfl, rfl⟩

/-- The half `h` of the slot of `T[i]`. -/
theorem locate_t {i h : Nat} (hi : i < 3) (hh : h < 2) :
    legalAccess (0x188 + 8 * i + 4 * h) .word = true ∧
      locate (0x188 + 8 * i + 4 * h) = .t ⟨i, hi⟩ (h == 1) := by
  interval_cases i <;> interval_cases h <;> exact ⟨rfl, rfl⟩

theorem legalAccess_high {off : Nat} (size : Size) (h : 0x200 ≤ off) :
    legalAccess off size = decide (off % size.bytes = 0) := by
  unfold legalAccess digestBase; rw [if_neg (by omega)]

/-- A naturally aligned access of DIGEST. -/
theorem locate_digest {j : Nat} (size : Size) (hj : j < 128) (ha : j % size.bytes = 0) :
    legalAccess (0x200 + j) size = true ∧ locate (0x200 + j) = .digest j := by
  constructor
  · rw [legalAccess_high size (by omega)]
    rcases size.bytes_cases with h | h | h <;> simp only [h, decide_eq_true_eq] at ha ⊢ <;> omega
  · have e : 0x200 + j - digestBase = j := Nat.add_sub_cancel_left _ _
    unfold locate; rw [if_neg (by omega), if_neg (by omega), if_pos (by omega), e]

/-- A naturally aligned access of MSG. -/
theorem locate_msg {j : Nat} (size : Size) (ha : j % size.bytes = 0) :
    legalAccess (0x1000 + j) size = true ∧ locate (0x1000 + j) = .msg j := by
  constructor
  · rw [legalAccess_high size (by omega)]
    rcases size.bytes_cases with h | h | h <;> simp only [h, decide_eq_true_eq] at ha ⊢ <;> omega
  · exact (locate_eq_msg _ _).2 rfl

/-- A write at an offset whose register is known. -/
theorem hostWrite_at {off : Nat} {size : Size} {target : Target}
    (h : legalAccess off size = true ∧ locate off = target) (d : Word32) (s : State) :
    hostWrite off size d s = writeTarget size d s target := by
  rw [hostWrite_of_legal h.1, h.2]

/-- A read at an offset whose register is known. -/
theorem hostRead_at {off : Nat} {size : Size} {target : Target}
    (h : legalAccess off size = true ∧ locate off = target) (s : State) :
    hostRead off size s = { s with
      rdata :=
        if s.status.busy && target.volatile then size.mask (Config.freeRead s.draws)
        else readTarget s size (size.mask (Config.freeRead s.draws)) target
      draws := s.draws + 1 } := by
  rw [hostRead_of_legal h.1, readValue, h.2]

/-- The byte of memory at an offset of MSG. -/
theorem bufByte_msg (s : State) (j : Nat) :
    s.bufByte (0x1000 + j) = if j < s.inst.msgMax then s.msg.read j else none := by
  unfold State.bufByte digestBase digestSize msgBase
  rw [if_neg (by omega)]
  simp only [Nat.add_sub_cancel_left]
  by_cases h : j < s.inst.msgMax
  · rw [if_pos (by omega), if_pos h]
  · rw [if_neg (by omega), if_neg h]

/-- The byte of memory at an offset of DIGEST. -/
theorem bufByte_digest (s : State) {j : Nat} (h : j < 128) : s.bufByte (0x200 + j) = s.digest.read j := by
  unfold State.bufByte digestBase digestSize msgBase
  rw [if_pos (by omega)]
  simp only [Nat.add_sub_cancel_left]

theorem busByte_eq (d : Word32) (k : Nat) : busByte d k = d.extractLsb' (8 * k) 8 := by
  apply BitVec.eq_of_getLsbD_eq; intro i hi; simp [busByte, hi]

theorem low_half (hi lo : Word32) : (hi ++ lo).extractLsb' 0 32 = lo := by
  rw [BitVec.extractLsb'_append_eq_of_add_le (by omega)]; simp

theorem high_half (hi lo : Word32) : (hi ++ lo).extractLsb' 32 32 = hi := by
  rw [BitVec.extractLsb'_append_eq_of_le (by omega)]; simp

end Sys2Proof.Machine
end

