-- ==== Sys2Proof/Laws/Step.lean ====
section
/-! SUPPORT. What one step can be, said once (spec 70_reset_and_hazards.md R229). -/

namespace Sys2Proof.Machine

open Sys2Proof

/-- The state with the first act of the agenda taken off. -/
def State.popped (s : State) : State := { s with agenda := s.agenda.tail }

/-- Everything a step that goes on can have been. -/
inductive StepEffect (s : State) : State → Prop where
  | idle (h : s.status.busy = false) : StepEffect s s.popped
  | command (h : s.status.busy = true) (i : Instr) (d : decode s.inst.pluginPresent s.cmd = .ok i)
      (t : State) (x : exec i s.popped = .next t) : StepEffect s t
  | illegal (h : s.status.busy = true) (w : Illegal) (d : decode s.inst.pluginPresent s.cmd = .error w) :
      StepEffect s (complete .badCommand s.popped)
  | reset : StepEffect s (hardReset s.popped)
  | read (off : Nat) (size : Size) (h : off < windowSize s.inst) : StepEffect s (hostRead off size s.popped)
  | write (off : Nat) (size : Size) (d : Word32) (h : off < windowSize s.inst) :
      StepEffect s (hostWrite off size d s.popped)

theorem engineTurn_effect {s t : State} (h : engineTurn s.popped = .next t) : StepEffect s t := by
  unfold engineTurn at h
  cases hb : s.status.busy
  · rw [if_neg (by simpa [State.popped] using hb)] at h
    obtain rfl : s.popped = t := by simpa using h
    exact .idle hb
  · rw [if_pos (by simpa [State.popped] using hb)] at h
    split at h
    · rename_i i hd
      exact .command hb i hd t h
    · rename_i w hd
      obtain rfl := (raise_eq_next _ _ _).1 h
      exact .illegal hb w hd

/-- A step that answers a next state is one of those. -/
theorem step_effect {s t : State} (h : step s = .next t) : StepEffect s t := by
  unfold step turn at h
  split at h
  · rename_i ha
    have : s.popped = s := by
      have hn : s.agenda.tail = s.agenda := by rw [ha]; rfl
      unfold State.popped; rw [hn]
    exact engineTurn_effect (by rw [this]; exact h)
  · rename_i e rest ha
    have hp : s.popped = { s with agenda := rest } := by unfold State.popped; rw [ha]; rfl
    rw [← hp] at h
    cases e with
    | engine => exact engineTurn_effect h
    | reset =>
      obtain rfl : hardReset s.popped = t := by simpa [eventTurn] using h
      exact .reset
    | access a =>
      cases a with
      | read addr size =>
        simp only [eventTurn, hostAccess] at h
        split at h
        · rename_i off ho
          obtain rfl : hostRead off size s.popped = t := by simpa using h
          exact .read off size ((windowOffset_eq_some _ _ _).1 ho).2
        · simp at h
      | write addr size d =>
        simp only [eventTurn, hostAccess] at h
        split at h
        · rename_i off ho
          obtain rfl : hostWrite off size d s.popped = t := by simpa using h
          exact .write off size d ((windowOffset_eq_some _ _ _).1 ho).2
        · simp at h

end Sys2Proof.Machine
end

