-- ==== Sys2Proof/Tests/Slice0.lean ====
section
/-! SUPPORT. The model's own tests: ill-formed commands, words written out from the encoding, one step of
each command on the spec's vectors (95_test_vectors.md), and a witness for every statement that has
hypotheses. -/

namespace Sys2Proof.Tests

open Sys2Proof Sys2Proof.Machine

/-! ## Well-formedness (R75, R76) -/

theorem test_wf_inject_19_refused : Instr.wf true (.inject 19) = false := by decide
theorem test_wf_round_72_refused : Instr.wf true (.round 72) = false := by decide
theorem test_wf_gfold_without_plugin_refused : Instr.wf false .gfold = false := by decide

/-! ## Decoding: words written out as RSV1 | FINAL | FIRST | ARG | RSV0 | TYPE | OP (R70, R73) -/

theorem test_decode_nop : decode false 0b000000_0_0_00000000_00_000000_00000000 = .ok .nop := by decide
theorem test_decode_init : decode false 0b000000_0_0_00000000_00_000000_00000001 = .ok .init := by decide
theorem test_decode_hash : decode false 0b000000_0_0_00000000_00_000000_00000010 = .ok .hash := by decide
theorem test_decode_loadiv : decode false 0b000000_0_0_00000000_00_000000_00000011 = .ok .loadiv := by decide
theorem test_decode_clearcv : decode false 0b000000_0_0_00000000_00_000000_00000100 = .ok .clearcv := by decide
theorem test_decode_ubi : decode false 0b000000_0_0_00000000_00_110000_00000101 = .ok (.ubi 48) := by decide
theorem test_decode_config : decode false 0b000000_0_0_00000000_00_000000_00000110 = .ok .config := by decide
theorem test_decode_output : decode false 0b000000_0_0_00000000_00_000000_00000111 = .ok .output := by decide
theorem test_decode_format : decode false 0b000000_0_0_00000000_00_000000_00001000 = .ok .format := by decide
theorem test_decode_gfold : decode true 0b000000_0_0_00000000_00_000000_00001001 = .ok .gfold := by decide
theorem test_decode_loadblk : decode false 0b000000_0_0_11111111_00_000000_00010000 = .ok (.loadblk 255) := by decide
theorem test_decode_ksched : decode false 0b000000_0_0_00000000_00_000000_00010001 = .ok .ksched := by decide
theorem test_decode_tweak : decode false 0b000000_0_1_00000000_00_110000_00010010 = .ok (.tweak 48 true false) := by decide
theorem test_decode_vload : decode false 0b000000_0_0_00000000_00_000000_00010011 = .ok .vload := by decide
theorem test_decode_inject : decode false 0b000000_0_0_00010010_00_000000_00010100 = .ok (.inject 18) := by decide
theorem test_decode_round : decode false 0b000000_0_0_01000111_00_000000_00010101 = .ok (.round 71) := by decide
theorem test_decode_encrypt : decode false 0b000000_0_0_00000000_00_000000_00010110 = .ok .encrypt := by decide
theorem test_decode_feedfwd : decode false 0b000000_0_0_00000000_00_000000_00010111 = .ok .feedfwd := by decide
theorem test_decode_block : decode false 0b000000_1_0_00000000_00_000100_00011000 = .ok (.block 4 false true) := by decide

/-- ERR-6 to ERR-9, and a bit in each field that must be 0. -/
theorem test_decode_illegal :
    decode true 0x00480015 = .error .argRange ∧ decode true 0x00130014 = .error .argRange ∧
    decode true 0x0000000A = .error .unassignedOpcode ∧ decode true 0x00000019 = .error .unassignedOpcode ∧
    decode true 0x00000109 = .error .unusedField ∧ decode false 0x00000009 = .error .noPlugin ∧
    decode true 0x00004002 = .error .reservedBits ∧ decode true 0x04000000 = .error .reservedBits ∧
    decode true 0x01000005 = .error .unusedField ∧ decode true 0x00010012 = .error .unusedField := by decide

theorem test_table_word : decodeTableWord 32 0x00480015 = none ∧ decodeTableWord 32 0x9 = some .gfold := by decide

/-! ## One step of each command

`after w s ok`: the word `w` is issued at `s` and the engine takes its turn; `ok` holds of the state then. -/

def after (w : Word32) (s : State) (ok : State → Bool) : Bool :=
  match step (placeWord w s) with
  | .next t => ok t
  | _ => false

/-- Reset, with a valid IV, a length and a message. -/
def ready (iv : Vec8) (len : Word32) (m : List Byte) : State :=
  { State.reset with iv := iv, status := { Status.reset with ivv := true }, len := len, msg := Memory.ofBytes 0 m }

/-- The IV of R162. -/
def skeinIv : Vec8 :=
  #v[0x4903ADFF749C51CE, 0x0D95DE399746DF03, 0x8FD1934127C79BCE, 0x9A255629FF352CB1,
    0x5DB62599DF6CA7B0, 0xEABE394CA9D5C3F4, 0x991112C71A75B523, 0xAE18A40B660FCC33]

/-- The CV of vector UBI-1. -/
def ubi1 : Vec8 :=
  #v[0x086D81666DB4C515, 0x5882EDFB5934F3C7, 0x48826BE0FBE468F3, 0xA02A1DCBF1C82E69,
    0x9D9A0890E965841D, 0x51F891563F25994D, 0x4AF7EA925B2D1447, 0x44B67D3124132749]

/-- R126's example. -/
theorem test_nop : after 0x00000000 State.reset (fun t =>
    decide (t = { State.reset with status := { Status.reset with done := true } })) = true := by decide

/-- R157's example with the value of R162. -/
theorem test_init : after 0x00000001 State.reset (fun t =>
    t.iv == skeinIv && t.cv == skeinIv && t.status.word == 0x6 && t.pos == 32) = true := by decide +kernel
/-- ERR-10. -/
theorem test_init_again : after 0x00000001 (ready skeinIv 0 []) (fun t =>
    t.status.word == 0x6 && t.cv == Vec8.zero && t.pos == 0) = true := by decide

/-- HASH-2: its first 16 characters, its last one, and the final POS. -/
theorem test_hash : after 0x00000002 (ready skeinIv 2 [0x41, 0xFB]) (fun t =>
    t.cv[0] == 0x27019CBDEE3C8F25 && t.cv[7] == 0x5184CAE6FB967DF6 && t.pos == 8 &&
    t.digest.readRange 0 4 == some [0x32, 0x35, 0x38, 0x66] && t.digest.read 127 == some 0x31) = true := by
  decide +kernel
/-- ERR-1. -/
theorem test_hash_without_iv : after 0x00000002 { State.reset with len := 3 } (fun t =>
    t.status.word == 0x32 && t.digest == [] && t.cv == Vec8.zero) = true := by decide

/-- R152's example. -/
theorem test_loadiv : after 0x00000003 (ready skeinIv 0 []) (fun t =>
    t.cv == skeinIv && t.iv == skeinIv && t.status.word == 0x6) = true := by decide
/-- ERR-14. -/
theorem test_loadiv_without_iv : after 0x00000003 { State.reset with cv := skeinIv } (fun t =>
    t.cv == skeinIv && t.status.word == 0x32) = true := by decide

/-- R153's example. -/
theorem test_clearcv : after 0x00000004 { State.reset with cv := skeinIv } (fun t =>
    t.cv == Vec8.zero && t.status.word == 0x2) = true := by decide

/-- UBI-4. -/
theorem test_ubi : after 0x00003005 { ready skeinIv 2 [0x41, 0xFB] with cv := skeinIv } (fun t =>
    t.cv[0] == 0x164FA872A33254AA && t.cv[7] == 0x692B1FE45B4976D5 && t.blk[0] == 0xFB41 && t.pos == 2 &&
    t.t == #v[2, 0xF000000000000000, 0xF000000000000002]) = true := by decide +kernel
/-- ERR-4. -/
theorem test_ubi_len_range : after 0x00003005 { State.reset with len := 4097 } (fun t =>
    t.status.word == 0x42) = true := by decide

/-- UBI-3: IVV stays 0. -/
theorem test_config : after 0x00000006 State.reset (fun t =>
    t.cv == skeinIv && t.iv == Vec8.zero && t.status.word == 0x2) = true := by decide +kernel

/-- UBI-6. -/
theorem test_output : after 0x00000007 { State.reset with cv := ubi1 } (fun t =>
    t.cv[0] == 0xC2195592504C5BBC && t.cv[7] == 0x7ABA2CE7D9D1A44E && t.ks[8] == 0x61B50F093E2E4434 &&
    t.t == #v[8, 0xFF00000000000000, 0xFF00000000000008] && t.digest == []) = true := by decide +kernel

/-- R159: by default SK256 takes 8 zero bytes too, so the position is 8. -/
theorem test_output_sk256_default : after 0x00000007 { State.reset with
      inst := { Instance.initial with profile := .sk256 }, blk := ubi1 } (fun t =>
    t.pos == 8 && t.blk == Vec8.zero) = true := by decide +kernel

/-- ENG-15 and ENG-19: byte order, and the high nibble first. -/
theorem test_format : after 0x00000008 { State.reset with cv := #v[0x07060504030201AB, 0, 0, 0, 0, 0, 0, 0] } (fun t =>
    t.digest.readRange 0 6 == some [0x61, 0x62, 0x30, 0x31, 0x30, 0x32] && t.digest.read 127 == some 0x30) = true := by
  decide +kernel
/-- SK-3. -/
theorem test_format_sk256 : after 0x00000008 { State.reset with
      inst := { Instance.initial with profile := .sk256 }, cv := #v[0x03020100, 0, 0, 0, 0, 0, 0, 0] } (fun t =>
    t.digest.readRange 4 4 == some [0x30, 0x32, 0x30, 0x33] && t.digest.read 63 == some 0x30 &&
    t.digest.read 64 == some 0 && t.digest.read 127 == some 0) = true := by decide +kernel

/-- GFOLD refuses an odd LEN before it reads anything (R125). -/
theorem test_gfold_odd : after 0x00000009 { State.reset with len := 3 } (fun t =>
    t.status.word == 0x12 && t.digest == []) = true := by decide
/-- ERR-8. -/
theorem test_gfold_without_plugin :
    (hostWrite 0x000 .word 0x00000009 State.reset).status.word = 0x22 := by decide

/-- ENG-8. -/
theorem test_loadblk : after 0x00000010 { State.reset with len := 2, msg := Memory.ofBytes 0 [0x41, 0xFB] } (fun t =>
    t.blk == #v[0xFB41, 0, 0, 0, 0, 0, 0, 0] && t.pos == 2 && t.status.word == 0x2) = true := by decide +kernel
/-- ENG-13. -/
theorem test_loadblk_bad_arg : after 0x00010010 State.reset (fun t =>
    t.status.word == 0x52 && t.pos == 0) = true := by decide

/-- KS-3, and KS-1's constant. -/
theorem test_ksched : after 0x00000011 { State.reset with cv := #v[0x1BD11BDAA9FC1A22, 0, 0, 0, 0, 0, 0, 5] } (fun t =>
    t.ks == #v[0x1BD11BDAA9FC1A22, 0, 0, 0, 0, 0, 0, 5, 5]) = true := by decide

/-- TW-1. -/
theorem test_tweak : after 0x03000412 { State.reset with pos := 32 } (fun t =>
    t.t == #v[0x20, 0xC400000000000000, 0xC400000000000020]) = true := by decide
/-- TW-2: FIRST alone, bit 62. -/
theorem test_tweak_first : after 0x01003012 { State.reset with pos := 64 } (fun t =>
    t.t == #v[0x40, 0x7000000000000000, 0x7000000000000040]) = true := by decide

/-- R176's example. -/
theorem test_vload : after 0x00000013 { State.reset with blk := #v[1, 2, 3, 4, 5, 6, 7, 8] } (fun t =>
    t.v == #v[1, 2, 3, 4, 5, 6, 7, 8]) = true := by decide

/-- MIX-2: the key index wraps. -/
theorem test_inject : after 0x00080014 { State.reset with
      ks := #v[1, 2, 3, 4, 5, 6, 7, 8, 9], t := #v[0x10, 0x20, 0x30] } (fun t =>
    t.v == #v[9, 1, 2, 3, 4, 0x35, 0x16, 0xF]) = true := by decide
/-- MIX-3. -/
theorem test_inject_18 : after 0x00120014 { State.reset with
      ks := #v[1, 2, 3, 4, 5, 6, 7, 8, 9], t := #v[0x10, 0x20, 0x30] } (fun t =>
    t.v == #v[1, 2, 3, 4, 5, 0x16, 0x27, 0x1A]) = true := by decide

/-- MIX-4c. -/
theorem test_round_1 : after 0x00010015 { State.reset with v := #v[1, 2, 3, 4, 5, 6, 7, 8] } (fun t =>
    t.v == #v[0x5, 0x0000000400000005, 0x5, 0x0000100000000005, 0xD, 0x000000000001800D, 0xD,
      0x000000004000000D]) = true := by decide +kernel
/-- MIX-4d. -/
theorem test_round_7 : after 0x00070015 { State.reset with v := #v[0, 0, 0, 0, 0, 0, 0, 0x8000000000000000] } (fun t =>
    t.v == #v[0x8000000000000000, 0, 0, 0, 0, 0, 0, 0x8000000400000000]) = true := by decide +kernel

/-- MIX-5, the published Threefish-512 zero vector. -/
theorem test_encrypt : after 0x00000016 { State.reset with ks := #v[0, 0, 0, 0, 0, 0, 0, 0, 0x1BD11BDAA9FC1A22] } (fun t =>
    t.v == #v[0xBC2560EFC6BBA2B1, 0xE3361F162238EB40, 0xFB8631EE0ABBD175, 0x7B9479D4C5479ED1,
      0xCFF0356E58F8C27B, 0xB1B7B08430F0E7F7, 0xE9A380A56139ABF1, 0xBE7B6D4AA11EB47E]) = true := by
  decide +kernel

/-- FF-1. -/
theorem test_feedfwd : after 0x00000017 { State.reset with
      v := #v[1, 2, 3, 4, 5, 6, 7, 8], blk := #v[1, 0, 0, 0, 0, 0, 0, 0xF], cv := skeinIv } (fun t =>
    t.cv == #v[0, 2, 3, 4, 5, 6, 7, 7]) = true := by decide

/-- UBI-3 by BLOCK. -/
theorem test_block : after 0x03000418 { State.reset with
      blk := #v[0x0000000133414853, 0x200, 0, 0, 0, 0, 0, 0], pos := 32 } (fun t =>
    t.cv == skeinIv && t.v[0] == 0x4903ADFE47DD199D && t.blk[1] == 0x200) = true := by decide +kernel

/-! ## Word primitives and the host's side -/

/-- WA-1, WA-3 and WA-5. -/
theorem test_words : addW .sk512 0xFFFFFFFFFFFFFFFF 1 = 0 ∧ rotlW .sk512 0x8000000000000001 1 = 3 ∧
    rotlW .sk512 0x8000000000000000 35 = 0x0000000400000000 := by decide

/-- SK256 words wrap at 32 bits (R91). -/
theorem test_words_sk256 : addW .sk256 0xFFFFFFFF 2 = 1 ∧ rotlW .sk256 0x80000001 1 = 3 := by decide

/-- WA-9 and WA-10. -/
theorem test_bytes : leWord [0, 1, 2, 3, 4, 5, 6, 7] = 0x0706050403020100 ∧
    leBytes .sk512 0x0706050403020100 = [0, 1, 2, 3, 4, 5, 6, 7] := by decide

/-- ENG-1, ENG-3, ENG-6 and ENG-7. -/
theorem test_nblocks : nblocks Instance.initial 0 = 1 ∧ nblocks Instance.initial 64 = 1 ∧
    nblocks Instance.initial 130 = 3 ∧
    nblocks { Instance.initial with alignedExtraBlock := true } 128 = 3 ∧
    blockPos Instance.initial 130 1 3 = 128 ∧ blockPos Instance.initial 130 2 3 = 130 := by decide

/-- SK-4. -/
theorem test_id : idWord Instance.initial = 0x00010840 ∧
    idWord { Instance.initial with profile := .sk256 } = 0x00010820 := by decide

/-- ERR-11: a misaligned read. -/
theorem test_misaligned_read : (hostRead 0x002 .word State.reset).status.word = 0x200 ∧
    (hostRead 0x002 .word { State.reset with rdata := 7 }).rdata = 0 := by decide

/-- ERR-12: V is read-only. -/
theorem test_write_v : hostWrite 0x100 .word 5 State.reset
    = { State.reset with status := { Status.reset with aerr := true } } := by decide

/-- ERR-13. -/
theorem test_acknowledge :
    (hostWrite 0x004 .word 2 { State.reset with ie := true, status := { Status.reset with done := true } }).irq = false ∧
    ({ State.reset with ie := true, status := { Status.reset with done := true } } : State).irq = true := by decide

/-- SK-5. -/
theorem test_sk256_high_half :
    hostWrite 0x044 .word 0xFFFFFFFF { State.reset with inst := { Instance.initial with profile := .sk256 } }
      = { State.reset with inst := { Instance.initial with profile := .sk256 } } := by decide

/-- P2, step 1, and the reading of it back (R51). -/
theorem test_message_bytes : (hostWrite 0x1000 .half 0xFB41 State.reset).msg = [(0, 0x41), (1, 0xFB)] ∧
    (hostRead 0x1001 .byte (hostWrite 0x1000 .half 0xFB41 State.reset)).rdata = 0xFB := by decide

/-! ## Witnesses: the hypotheses of each statement can be met

Each theorem is named after its statement; a statement without hypotheses has none here. -/

/-- Idle, in the default instance. -/
def idle : State := State.reset
/-- A NOP is accepted and has not run. -/
def running : State := { State.reset with status := { Status.reset with busy := true } }
/-- The SK256 profile. -/
def reduced : State := { State.reset with inst := { Instance.initial with profile := .sk256 } }
/-- The same while a command runs. -/
def reducedRunning : State := { reduced with status := { Status.reset with busy := true } }
/-- A window at address 0x100, and an agenda. -/
def placed (events : List Event) : State :=
  { State.reset with inst := { Instance.initial with base := 0x100 }, agenda := events }
/-- MSG as large as 256 blocks of zeros. -/
def large : State :=
  { State.reset with
    inst := { Instance.initial with msgMax := 16384 }
    len := 16384
    msg := Memory.ofBytes 0 (List.replicate 16384 0) }

theorem witness_EncodeThenDecode : Instr.wf false (.inject 18) = true ∧ Instr.wf false (.round 71) = true ∧
    Instr.wf true .gfold = true ∧ Instr.wf false (.loadblk 255) = true := by decide

theorem witness_DecodeThenEncode : decode false 0x00120014 = .ok (.inject 18) ∧
    decode false 0x03003F18 = .ok (.block 63 true true) ∧ decode true 0x00000009 = .ok .gfold := by decide

theorem witness_StepRunsTheDecodedCommand :
    running.status.busy = true ∧ decode running.inst.pluginPresent running.cmd = .ok .nop ∧ running.agenda = [] ∧
    ({ running with agenda := [.engine] } : State).agenda = .engine :: [] := by decide

theorem witness_StepPerformsTheNextEvent :
    idle.status.busy = false ∧ idle.agenda = [] ∧ (placed [.engine]).agenda = .engine :: [] ∧
    (placed [.reset]).agenda = .reset :: [] ∧
    0x1FFF < 0x1000 + (placed []).inst.msgMax ∧
    (placed [.access (.read (0x100 + 0x1FFF) .byte)]).agenda
      = .access (.read ((placed []).inst.base + 0x1FFF) .byte) :: [] ∧
    (placed [.access (.write (0x100 + 0x1FFF) .byte 7)]).agenda
      = .access (.write ((placed []).inst.base + 0x1FFF) .byte 7) :: [] ∧
    0x0FF < (placed []).inst.base ∧ (placed []).inst.base + 0x1000 + (placed []).inst.msgMax ≤ 0x2100 := by decide

theorem witness_IssueTakesOrRejectsAWord : idle.status.busy = false ∧
    legalWord idle.inst.pluginPresent 0x00470015 = true ∧ legalWord idle.inst.pluginPresent 0x00480015 = false := by
  decide

theorem witness_CommandsCompleteAndErrorsArePrecise :
    (∃ t, exec .nop idle = .next t ∧ t.status.err = .none) ∧
    (∃ t, exec .hash idle = .next t ∧ t.status.err ≠ .none) :=
  ⟨⟨_, rfl, rfl⟩, ⟨_, rfl, by decide⟩⟩

theorem witness_FourteenCommandsNeverFail : Instr.block 63 true true ∈
    [Instr.nop, .init, .clearcv, .config, .output, .format, .ksched, .tweak 63 true true, .vload, .inject 18,
      .round 71, .encrypt, .feedfwd, .block 63 true true] := by decide

theorem witness_FirstErrorInOrderIsReported :
    (idle.status.busy = false ∧ legalWord idle.inst.pluginPresent 0x0000000A = false) ∧ idle.status.ivv = false ∧
    ((ready skeinIv 4097 []).inst.msgMax < (ready skeinIv 4097 []).len.toNat ∧
      (ready skeinIv 4097 []).status.ivv = true) ∧
    ((ready skeinIv 4095 []).len.toNat ≤ (ready skeinIv 4095 []).inst.msgMax ∧
      (ready skeinIv 4095 []).len.toNat % 2 = 1 ∧ (ready skeinIv 4095 []).status.ivv = true) ∧
    (idle.len.toNat ≤ idle.inst.msgMax ∧ idle.len.toNat % 2 = 0 ∧
      nblocks idle.inst idle.len.toNat ≤ (1#8).toNat) := by decide

theorem witness_StepStopsOnlyForTwoReasons :
    step (placed [.access (.read 0x0FF .byte)]) = .fault .outsideWindow ∧
    step (placed [.access (.write 0x2100 .byte 0)]) = .fault .outsideWindow ∧
    step { running with cmd := 0x00003005, len := 2, msg := [(0, 0x41)] } = .fault .unwrittenMsg :=
  ⟨rfl, rfl, rfl⟩

theorem witness_InterruptFollowsEnableAndDone :
    (∃ t, exec .nop { idle with ie := true } = .next t ∧ t.irq = true) ∧
    idle.status.busy = false ∧ legalWord idle.inst.pluginPresent 0 = true ∧
    (2#32).getLsbD 1 = true ∧ (1#32).getLsbD 1 = false :=
  ⟨⟨_, rfl, rfl⟩, by decide⟩

theorem witness_SoftResetKeepsBuffers : (2#32).getLsbD 1 = true ∧ (3#32).getLsbD 1 = true := by decide

theorem witness_StatusAndCtrlWrites : (1#32).getLsbD 1 = false := by decide

theorem witness_ControlRegisterReads : idle.inst.wf ∧ idle.status.busy = false ∧
    0x01C ∈ [0x000, 0x004, 0x008, 0x00C, 0x010, 0x014, 0x018, 0x01C] ∧
    ({ Instance.initial with msgMax := 2 ^ 32 - 64 } : Instance).wf := by decide

theorem witness_BusyDropsWrites : running.status.busy = true ∧ 0x014 ∈ [0x000, 0x00C, 0x010, 0x014] ∧
    4092 < running.inst.msgMax ∧ 4092 % Size.word.bytes = 0 ∧ 4095 % Size.byte.bytes = 0 ∧
    (1#32).getLsbD 1 = false ∧ (2#32).getLsbD 1 = true := by decide

theorem witness_ReadOnlyWritesSetAerr :
    ((1 : Nat) = 0 ∨ ((1 : Nat) = 1 ∧ idle.inst.profile = .sk512)) ∧
    ((0 : Nat) = 0 ∨ ((0 : Nat) = 1 ∧ reduced.inst.profile = .sk512)) ∧
    127 < 128 ∧ 127 % Size.byte.bytes = 0 ∧ 124 % Size.word.bytes = 0 := by decide

theorem witness_Sk256HighHalvesReadZero :
    reduced.inst.profile = .sk256 ∧ reduced.status.busy = false ∧
    reducedRunning.inst.profile = .sk256 ∧ reducedRunning.status.busy = true ∧
    0x0C0 + 8 * 7 ∈ [0x040 + 8 * 7, 0x0C0 + 8 * 7] ∧ 0x100 + 8 * 7 ∈ [0x080 + 8 * 7, 0x100 + 8 * 7] ∧
    0x180 = 0x140 + 8 * 8 ∧ 0x198 = 0x188 + 8 * 2 := by decide

theorem witness_IllegalAccessesSetAerr :
    (0x1FF < 0x200 ∧ (Size.word ≠ .word ∨ 0x1FF % 4 ≠ 0)) ∧ (0x1FC < 0x200 ∧ (Size.byte ≠ .word ∨ 0x1FC % 4 ≠ 0)) ∧
    (((0x200 ≤ 0x27F ∧ 0x27F < 0x280) ∨ 0x1000 ≤ 0x27F) ∧ 0x27F % Size.half.bytes ≠ 0) ∧
    (((0x200 ≤ 0x1001 ∧ 0x1001 < 0x280) ∨ 0x1000 ≤ 0x1001) ∧ 0x1001 % Size.word.bytes ≠ 0) := by decide

theorem witness_ReservedOffsetsReadZero :
    (((0x020 ≤ 0x03C ∧ 0x03C < 0x040) ∨ (0x1A0 ≤ 0x03C ∧ 0x03C < 0x200)) ∧ Size.word = .word ∧ 0x03C % 4 = 0) ∧
    (((0x020 ≤ 0x1A0 ∧ 0x1A0 < 0x040) ∨ (0x1A0 ≤ 0x1A0 ∧ 0x1A0 < 0x200)) ∧ Size.word = .word ∧ 0x1A0 % 4 = 0) ∧
    (0x280 ≤ 0xFFF ∧ 0xFFF < 0x1000 ∧ 0xFFF % Size.byte.bytes = 0) := by decide

theorem witness_BusyReadsAreFree : running.status.busy = true ∧ reducedRunning.status.busy = true ∧ 1 < 2 ∧
    127 < 128 ∧ 127 % Size.byte.bytes = 0 ∧ 126 % Size.half.bytes = 0 ∧ 124 % Size.word.bytes = 0 := by decide

theorem witness_WordSlotReads : idle.status.busy = false ∧
    ((1 : Nat) = 0 ∨ ((1 : Nat) = 1 ∧ idle.inst.profile = .sk512)) ∧ reduced.status.busy = false := by decide

theorem witness_WordSlotWrites : idle.status.busy = false ∧ idle.inst.profile = .sk512 ∧
    reduced.status.busy = false := by decide

theorem witness_LenAndPosWrites : idle.status.busy = false := by decide

theorem witness_MsgWriteIsLittleEndian : idle.status.busy = false ∧ idle.inst.wf ∧ 4092 < idle.inst.msgMax ∧
    4092 % Size.word.bytes = 0 ∧ 4095 < idle.inst.msgMax ∧ 4095 % Size.byte.bytes = 0 := by decide

theorem witness_BufferReadIsLittleEndian :
    (4094 % Size.half.bytes = 0 ∧ ∀ k, k < Size.half.bytes →
      ({ idle with msg := [(4094, 1), (4095, 2)] } : State).msg.read (4094 + k) = some (BitVec.ofNat 8 (k + 1))) ∧
    (126 % Size.half.bytes = 0 ∧ idle.status.busy = false ∧ 126 < 128 ∧ ∀ k, k < Size.half.bytes →
      ({ idle with digest := [(126, 1), (127, 2)] } : State).digest.read (126 + k) = some (BitVec.ofNat 8 (k + 1))) := by
  decide

theorem witness_AddAndRotateInNumbers : 31 < Profile.sk256.width ∧ FitsWord .sk256 0xFFFFFFFF ∧
    63 < Profile.sk512.width ∧ FitsWord .sk512 0xFFFFFFFFFFFFFFFF ∧ 0 < Profile.sk256.width := by decide

theorem witness_BytesAndWordsAreInverse : FitsWord .sk256 0xFFFFFFFF ∧
    ([1, 2, 3, 4] : List Byte).length = Profile.sk256.wordBytes ∧
    ([1, 2, 3, 4, 5, 6, 7, 8] : List Byte).length ≤ 8 := by decide

theorem witness_BlockCountCoversTheData :
    (0 < 64 ∧ (Instance.initial.alignedExtraBlock = false ∨ 64 % Instance.initial.profile.blockBytes ≠ 0)) ∧
    (0 < 64 ∧ ({ Instance.initial with alignedExtraBlock := true } : Instance).alignedExtraBlock = true ∧
      64 % Instance.initial.profile.blockBytes = 0) := by decide

theorem witness_LoadblkLoadsThePaddedBlock :
    (ready skeinIv 2 [0x41, 0xFB]).LenAccepted ∧
    (0#8).toNat < nblocks (ready skeinIv 2 [0x41, 0xFB]).inst (ready skeinIv 2 [0x41, 0xFB]).len.toNat ∧
    ∀ j, j < 2 → (ready skeinIv 2 [0x41, 0xFB]).msg.read j = some (([0x41, 0xFB] : List Byte).getD j 0) := by decide

/-- The accepted message of GFOLD, UBI, HASH and the block loop. -/
theorem witness_GfoldFoldsThePaddedMessage : (ready skeinIv 2 [0x41, 0xFB]).LenAccepted ∧
    (ready skeinIv 2 [0x41, 0xFB]).Message [0x41, 0xFB] := by decide

/-- There is a padding length that gives the residue. -/
theorem witness_PluginPaddingReachesTheResidue (p : Profile) (m : List Byte) :
    ∃ y, (m.length + 1 + y) % gBlockBytes p = Config.gResidue p % gBlockBytes p :=
  ⟨_, (padLength_spec (gBlockBytes_pos p) _ _).1⟩

theorem witness_TweakSetsTheTweakWords : idle.inst.profile = .sk512 ∧ reduced.inst.profile = .sk256 := by decide

theorem witness_LoadivCopiesTheIv : (ready skeinIv 0 []).status.ivv = true ∧ idle.status.ivv = false := by decide

theorem witness_UbiCommandsRunUbiCalls : (ready skeinIv 0 []).LenAccepted ∧ (ready skeinIv 0 []).Message [] := by
  decide

/-- 256 blocks, the most that LOADBLK reaches. -/
theorem witness_UbiEqualsTheBlockLoop : large.LenAccepted ∧ large.Message (List.replicate 16384 0) ∧
    nblocks large.inst large.len.toNat ≤ 256 := by
  refine ⟨by decide, ⟨List.length_replicate, fun j hj => ?_⟩, by decide⟩
  have hj : j < 16384 := hj
  have h := Memory.read_ofBytes (List.replicate 16384 0) 0 j
  rw [Nat.zero_add, List.getElem?_replicate, if_pos hj] at h
  rw [List.getD_eq_getElem?_getD, List.getElem?_replicate, if_pos hj]
  exact h

theorem witness_ConstantPhasesRunOneBlock : idle.inst.profile = .sk512 ∧
    reduced.inst.profile = .sk256 ∧ reduced.inst.outData32 = [0, 0, 0, 0, 0, 0, 0, 0] := by decide

theorem witness_InitComputesTheIvOnce : (ready skeinIv 0 []).status.ivv = true ∧ idle.status.ivv = false := by decide

theorem witness_HashEqualsHashSeq : (ready skeinIv 2 [0x41, 0xFB]).status.ivv = true ∧
    (ready skeinIv 2 [0x41, 0xFB]).LenAccepted ∧ (ready skeinIv 2 [0x41, 0xFB]).Message [0x41, 0xFB] := by decide

theorem witness_HashIsRepeatable : ∃ t, exec .hash (ready skeinIv 0 []) = .next t ∧ t.status.err = .none :=
  ⟨_, rfl, rfl⟩

theorem witness_CipherIsABijection : ∀ i : Fin 8, FitsWord .sk256 (#v[0xFFFFFFFF, 0, 1, 2, 3, 4, 5, 6] : Vec8)[i] := by
  decide

/-- A state with a position written meets the invariant, and takes a step. -/
theorem witness_StepKeepsTheInvariant : ({ idle with pos := 32 } : State).Inv ∧
    step { idle with pos := 32 } = .next { idle with pos := 32 } := by
  refine ⟨⟨by decide, ⟨by decide, by decide, by decide, by decide, by decide, by decide⟩, by decide, rfl, ?_,
    List.Pairwise.nil, ?_, .inl rfl⟩, rfl⟩
  · intro h; cases h
  · intro c h; cases h

theorem witness_InstanceIsConstant : ∃ t, step (placed [.reset]) = .next t := ⟨_, rfl⟩

/-- A valid IV kept by a step, and one that INIT makes valid. -/
theorem witness_IvIsWrittenOnce : (∃ t, step (ready skeinIv 0 []) = .next t) ∧
    (ready skeinIv 0 []).status.ivv = true ∧ idle.status.ivv = false ∧
    ∃ t, step (placeWord 0x00000001 idle) = .next t := ⟨⟨_, rfl⟩, by decide, by decide, ⟨_, rfl⟩⟩

theorem witness_CommandFrames : (∃ t, exec .vload (ready skeinIv 0 []) = .next t) ∧
    (ready skeinIv 0 []).status.ivv = true ∧ Instr.vload ∉ [Instr.format, .hash, .gfold] :=
  ⟨⟨_, rfl⟩, by decide, by decide⟩

theorem witness_BytesBeyondLenHaveNoEffect : ∀ j, j < (ready skeinIv 2 [0x41, 0xFB]).len.toNat →
    Memory.read [(0, 0x41), (1, 0xFB), (2, 0x99)] j = (ready skeinIv 2 [0x41, 0xFB]).msg.read j := by decide

theorem witness_AcceptedCommandsComplete :
    ∃ t, core.run 2 { running with agenda := [.access (.read 0 .word)] } = .next t := ⟨_, rfl⟩

end Sys2Proof.Tests
end

section
/-! The step, case by case of the agenda, and the statements of 00_scope.md: what the engine's turn runs (O5)
and what each act of the outside world does (O6). -/

namespace Sys2Proof.Machine

open Sys2Proof

/-! ## The engine's turn -/

theorem engineTurn_of_busy {s : State} {i : Instr} (hb : s.status.busy = true)
    (hd : decode s.inst.pluginPresent s.cmd = .ok i) : engineTurn s = exec i s := by
  unfold engineTurn
  rw [if_pos hb, hd]

/-- An idle engine keeps all state (R209). -/
theorem engineTurn_of_idle {s : State} (hb : s.status.busy = false) : engineTurn s = .next s := by
  unfold engineTurn
  rw [if_neg (by simp [hb])]

/-! ## A host access at a platform address (R55, R61) -/

theorem windowOffset_base_add {c : Instance} {off : Nat} (h : off < windowSize c) :
    windowOffset c (c.base + off) = some off :=
  (windowOffset_eq_some c _ off).2 ⟨rfl, h⟩

theorem hostAccess_read_inside (size : Size) {off : Nat} {s : State} (h : off < windowSize s.inst) :
    hostAccess (.read (s.inst.base + off) size) s = .next (hostRead off size s) := by
  simp only [hostAccess, windowOffset_base_add h]

theorem hostAccess_write_inside (size : Size) (d : Word32) {off : Nat} {s : State}
    (h : off < windowSize s.inst) :
    hostAccess (.write (s.inst.base + off) size d) s = .next (hostWrite off size d s) := by
  simp only [hostAccess, windowOffset_base_add h]

theorem hostAccess_read_outside (size : Size) {addr : Nat} {s : State}
    (h : windowOffset s.inst addr = none) : hostAccess (.read addr size) s = .fault .outsideWindow := by
  simp only [hostAccess, h]

theorem hostAccess_write_outside (size : Size) (d : Word32) {addr : Nat} {s : State}
    (h : windowOffset s.inst addr = none) :
    hostAccess (.write addr size d) s = .fault .outsideWindow := by
  simp only [hostAccess, h]

/-! ## The step, by what stands first on the agenda (R229; log 7) -/

theorem step_of_agenda_nil {s : State} (h : s.agenda = []) : step s = engineTurn s := by
  unfold step turn
  rw [h]

theorem step_of_agenda_cons {s : State} {e : Event} {rest : List Event} (h : s.agenda = e :: rest) :
    step s = eventTurn e { s with agenda := rest } := by
  unfold step turn
  rw [h]

theorem step_of_engine {s : State} {rest : List Event} (h : s.agenda = .engine :: rest) :
    step s = engineTurn { s with agenda := rest } :=
  step_of_agenda_cons h

theorem step_of_reset {s : State} {rest : List Event} (h : s.agenda = .reset :: rest) :
    step s = .next (hardReset { s with agenda := rest }) :=
  step_of_agenda_cons h

theorem step_of_access {s : State} {a : Access} {rest : List Event} (h : s.agenda = .access a :: rest) :
    step s = hostAccess a { s with agenda := rest } :=
  step_of_agenda_cons h

/-! ## The statements -/

/-- Settles O5: the agenda gives the turn to the engine in both cases, and a running engine's turn is `exec`
of the word in CMD; taking the turn off the agenda changes neither STATUS nor CMD. -/
theorem stepRunsTheDecodedCommand : Obligations.StepRunsTheDecodedCommand := by
  intro s i hbusy hdecode
  constructor
  · intro hnil
    rw [step_of_agenda_nil hnil, engineTurn_of_busy hbusy hdecode]
  · intro rest hengine
    have hturn : engineTurn { s with agenda := rest } = exec i { s with agenda := rest } :=
      engineTurn_of_busy hbusy hdecode
    rw [step_of_engine hengine, hturn]

/-- Settles O6, act by act: the engine's turn while idle, the reset input, an access in the window and one
outside it. -/
theorem stepPerformsTheNextEvent : Obligations.StepPerformsTheNextEvent := by
  intro s rest
  refine ⟨?idleNil, ?idleEngine, ?reset, ?readInside, ?writeInside, ?outside⟩
  case idleNil =>
    intro hidle hnil
    rw [step_of_agenda_nil hnil, engineTurn_of_idle hidle]
  case idleEngine =>
    intro hidle hengine
    have hturn : engineTurn { s with agenda := rest } = .next { s with agenda := rest } :=
      engineTurn_of_idle hidle
    rw [step_of_engine hengine, hturn]
  case reset => exact step_of_reset
  case readInside =>
    intro off size hoff hread
    exact (step_of_access hread).trans (hostAccess_read_inside size hoff)
  case writeInside =>
    intro off size d hoff hwrite
    exact (step_of_access hwrite).trans (hostAccess_write_inside size d hoff)
  case outside =>
    intro addr size d haddr hagenda
    have hout : windowOffset s.inst addr = none :=
      (windowOffset_eq_none s.inst addr).2 (by rwa [Nat.add_assoc] at haddr)
    obtain hread | hwrite := hagenda
    · exact (step_of_access hread).trans (hostAccess_read_outside size hout)
    · exact (step_of_access hwrite).trans (hostAccess_write_outside size d hout)

end Sys2Proof.Machine
end

section
/-! What a command does before it completes, said once, and what follows from it: the frame of every command
(O58). -/

namespace Sys2Proof.Machine

open Sys2Proof

/-! ## The data registers hold words of `W` bits, and T is a tweak (R27, R90) -/

/-- Every data register holds words of `W` bits, and `T[2] = T[0] ^ T[1]`: the part of the invariant that
speaks of the data registers. -/
structure State.RegistersFit (s : State) : Prop where
  cv : FitsVec s.inst.profile s.cv
  iv : FitsVec s.inst.profile s.iv
  blk : FitsVec s.inst.profile s.blk
  v : FitsVec s.inst.profile s.v
  ks : FitsVec s.inst.profile s.ks
  t : FitsVec s.inst.profile s.t
  tweak_xor : s.t[2] = s.t[0] ^^^ s.t[1]

theorem fitsVec_zero (p : Profile) : FitsVec p Vec8.zero := fitsVec_gen fun _ => fits_zero p

theorem State.RegistersFit.withCv {s : State} (h : s.RegistersFit) {w : Vec8}
    (hw : FitsVec s.inst.profile w) : ({ s with cv := w } : State).RegistersFit :=
  { h with cv := hw }

theorem State.RegistersFit.withV {s : State} (h : s.RegistersFit) {w : Vec8}
    (hw : FitsVec s.inst.profile w) : ({ s with v := w } : State).RegistersFit :=
  { h with v := hw }

theorem State.RegistersFit.withBlk {s : State} (h : s.RegistersFit) {w : Vec8} (q : BitVec 64)
    (hw : FitsVec s.inst.profile w) : ({ s with blk := w, pos := q } : State).RegistersFit :=
  { h with blk := hw }

theorem State.RegistersFit.withKs {s : State} (h : s.RegistersFit) :
    ({ s with ks := keySchedule s.inst.profile s.cv } : State).RegistersFit :=
  { h with ks := fits_keySchedule h.cv }

theorem State.RegistersFit.withTweak {s : State} (h : s.RegistersFit) (type : BitVec 6)
    (first final : Bool) :
    ({ s with t := tweak s.inst.profile s.pos type first final } : State).RegistersFit :=
  { h with t := fits_tweak _ _ _ _ _, tweak_xor := rfl }

/-- A block step is KSCHED, TWEAK, ENCRYPT and FEEDFWD, each of which keeps the registers in order (R140). -/
theorem State.RegistersFit.blockOp {s : State} (h : s.RegistersFit) (type : BitVec 6) (first final : Bool) :
    (blockOp type first final s).RegistersFit :=
  ((h.withKs.withTweak type first final).withV (fits_cipher _ _ _ _)).withCv
    (fits_xorVec (fits_cipher _ _ _ _) h.blk)

theorem State.RegistersFit.ubi {s : State} (h : s.RegistersFit) (type : BitVec 6) (d : List Byte) :
    (ubi type d s).RegistersFit := by
  obtain ⟨hcv, hblk, hv, hks, ht, hxor⟩ := ubi_registers h.cv type d
  have hinst := ubi_inst type d s
  refine ⟨?_, ?_, ?_, ?_, ?_, ?_, hxor⟩ <;> rw [hinst]
  · exact hcv
  · rw [(ubi_frame type d s).iv]; exact h.iv
  · exact hblk
  · exact hv
  · exact hks
  · exact ht

/-- The words of the plug-in's state have `W` bits (R124). -/
theorem fits_foldG (p : Profile) (w : List Word) (b : Nat) : FitsVec p (foldG p w b) := by
  cases b <;> exact fitsVec_gen fun _ => fits_trunc p _

/-! ## The effect of a command -/

/-- The commands that write DIGEST (R36, R125). -/
abbrev WritesDigest (i : Instr) : Prop := i ∈ [Instr.format, .hash, .gfold]

/-- Every way command `i` can change the state before its completion: it writes step registers, INIT stores
an IV that was not valid, or FORMAT, HASH or GFOLD write the whole of DIGEST besides. -/
inductive CommandEffect (s : State) (i : Instr) : State → Prop where
  | step (u : State) (same : SameOutsideStep s u) (fit : s.RegistersFit → u.RegistersFit) :
      CommandEffect s i u
  | init (h : i = .init) (invalid : s.status.ivv = false) :
      CommandEffect s i (storeIv (configPhase { s with cv := Vec8.zero }))
  | digest (h : WritesDigest i) (u : State) (same : SameOutsideStep s u)
      (fit : s.RegistersFit → u.RegistersFit) (cs : List Byte) :
      CommandEffect s i { u with digest := digestImage cs }

/-- Command `i` ends in `t`: its effect, then its completion (R195). -/
def CommandEnds (s : State) (i : Instr) (t : State) : Prop :=
  ∃ e u, CommandEffect s i u ∧ t = complete e u

/-- A change of step registers. -/
theorem sameOutsideStep_registers (s : State) (cv blk v : Vec8) (ks : Vector Word 9) (t : Vector Word 3)
    (pos : BitVec 64) :
    SameOutsideStep s { s with cv := cv, blk := blk, v := v, ks := ks, t := t, pos := pos } :=
  ⟨rfl, rfl, rfl, rfl, rfl, rfl, rfl, rfl, rfl, rfl, rfl⟩

theorem CommandEffect.refl (s : State) (i : Instr) : CommandEffect s i s :=
  .step s (SameOutsideStep.refl s) id

theorem finish_ends {s t u : State} {i : Instr} (hu : CommandEffect s i u) (h : finish u = .next t) :
    CommandEnds s i t :=
  ⟨.none, u, hu, ((finish_eq_next u t).1 h).symm⟩

theorem raise_ends {s t : State} {i : Instr} {e : ErrCode} (h : raise e s = .next t) : CommandEnds s i t :=
  ⟨e, s, CommandEffect.refl s i, ((raise_eq_next e s t).1 h).symm⟩

theorem withMessage_ends {s t : State} {i : Instr} {f : List Byte → State}
    (hf : ∀ d, CommandEffect s i (f d)) (h : withMessage s f = .next t) : CommandEnds s i t := by
  obtain ⟨e, -, rfl⟩ | ⟨-, d, -, rfl⟩ := (withMessage_eq_next s t f).1 h
  · exact ⟨e, s, CommandEffect.refl s i, rfl⟩
  · exact ⟨.none, f d, hf d, rfl⟩

theorem execLoadblk_ends {s t : State} {k : BitVec 8} (h : execLoadblk k s = .next t) :
    CommandEnds s (.loadblk k) t := by
  obtain ⟨e, -, rfl⟩ | ⟨-, -, rfl⟩ | ⟨-, -, d, -, rfl⟩ := (execLoadblk_eq_next k s t).1 h
  · exact ⟨e, s, CommandEffect.refl s _, rfl⟩
  · exact ⟨.badArg, s, CommandEffect.refl s _, rfl⟩
  · exact ⟨.none, _, .step _ (sameOutsideStep_registers _ _ _ _ _ _ _)
      fun hs => hs.withBlk _ (fits_wordsOf _ _), rfl⟩

/-- HASH: CV from IV, the message phase, the output phase, then DIGEST (R160). -/
theorem hash_effect (s : State) (d : List Byte) :
    CommandEffect s .hash (writeDigest (outputPhase (ubi tagMsg d { s with cv := s.iv }))) := by
  have hiv : SameOutsideStep s { s with cv := s.iv } := sameOutsideStep_registers _ _ _ _ _ _ _
  exact .digest (by decide) _ ((hiv.trans (ubi_frame _ _ _)).trans (outputPhase_frame _))
    (fun hs => ((hs.withCv hs.iv).ubi _ _).ubi _ _) _

/-- Whatever command the engine executes, it ends in one of those ways. -/
theorem exec_ends {i : Instr} {s t : State} (h : exec i s = .next t) : CommandEnds s i t := by
  have regs := fun cv blk v ks t pos => sameOutsideStep_registers s cv blk v ks t pos
  cases i with
  | nop => exact finish_ends (.refl s _) h
  | init =>
    cases hv : s.status.ivv
    · exact finish_ends (.init rfl hv) (by simpa [exec, execInit, hv] using h)
    · exact finish_ends (.refl s _) (by simpa [exec, execInit, hv] using h)
  | hash =>
    cases hv : s.status.ivv
    · exact raise_ends (e := .noIv) (by simpa [exec, execHash, hv] using h)
    · exact withMessage_ends (hash_effect s) (by simpa [exec, execHash, hv] using h)
  | loadiv =>
    cases hv : s.status.ivv
    · exact raise_ends (e := .noIv) (by simpa [exec, execLoadiv, hv] using h)
    · exact finish_ends (.step _ (regs s.iv _ _ _ _ _) fun hs => hs.withCv hs.iv)
        (by simpa [exec, execLoadiv, hv] using h)
  | clearcv => exact finish_ends (.step _ (regs _ _ _ _ _ _) fun hs => hs.withCv (fitsVec_zero _)) h
  | ubi type => exact withMessage_ends (fun d => .step _ (ubi_frame type d s) fun hs => hs.ubi type d) h
  | config => exact finish_ends (.step _ (configPhase_frame s) fun hs => hs.ubi _ _) h
  | output => exact finish_ends (.step _ (outputPhase_frame s) fun hs => hs.ubi _ _) h
  | format => exact finish_ends (.digest (by decide) s (SameOutsideStep.refl s) id _) h
  | gfold =>
    exact withMessage_ends (fun d => .digest (by decide) { s with cv := _ } (regs _ _ _ _ _ _)
      (fun hs => hs.withCv (fits_foldG _ _ _)) _) h
  | loadblk k => exact execLoadblk_ends h
  | ksched => exact finish_ends (.step _ (regs _ _ _ _ _ _) fun hs => hs.withKs) h
  | tweak type first final => exact finish_ends (.step _ (regs _ _ _ _ _ _) fun hs => hs.withTweak _ _ _) h
  | vload => exact finish_ends (.step _ (regs _ _ _ _ _ _) fun hs => hs.withV hs.blk) h
  | inject n => exact finish_ends (.step _ (regs _ _ _ _ _ _) fun hs => hs.withV (fits_inject _ _ _ _ _)) h
  | round d => exact finish_ends (.step _ (regs _ _ _ _ _ _) fun hs => hs.withV (fits_elemRound hs.v _)) h
  | encrypt => exact finish_ends (.step _ (regs _ _ _ _ _ _) fun hs => hs.withV (fits_cipher _ _ _ _)) h
  | feedfwd =>
    exact finish_ends (.step _ (regs _ _ _ _ _ _) fun hs => hs.withCv (fits_xorVec hs.v hs.blk)) h
  | block type first final =>
    exact finish_ends (.step _ (regs _ _ _ _ _ _) fun hs => hs.blockOp type first final) h

/-! ## The frame of a command -/

/-- A command that is not FORMAT, HASH or GFOLD keeps DIGEST. -/
theorem exec_digest {i : Instr} {s t : State} (h : exec i s = .next t) (hi : ¬ WritesDigest i) :
    t.digest = s.digest := by
  obtain ⟨e, u, hu, rfl⟩ := exec_ends h
  rw [complete_digest]
  cases hu with
  | step _ same _ => exact same.digest
  | init _ _ => exact (configPhase_frame { s with cv := Vec8.zero }).digest
  | digest hd => exact absurd hd hi

/-- A command keeps IV and its valid bit, unless it is INIT and the IV was not valid. -/
theorem exec_iv {i : Instr} {s t : State} (h : exec i s = .next t) :
    (t.iv = s.iv ∧ t.status.ivv = s.status.ivv) ∨
      (i = .init ∧ s.status.ivv = false ∧ t.status.ivv = true) := by
  obtain ⟨e, u, hu, rfl⟩ := exec_ends h
  rw [complete_iv, complete_status, Status.complete_ivv]
  cases hu with
  | step _ same _ => exact .inl ⟨same.iv, by rw [same.status]⟩
  | init hi hv => exact .inr ⟨hi, hv, rfl⟩
  | digest _ u same => exact .inl ⟨same.iv, by simp only [same.status]⟩

/-- A byte of memory is a byte of DIGEST or of MSG. -/
theorem bufByte_congr {s t : State} (hd : t.digest = s.digest) (hm : t.msg = s.msg) (hi : t.inst = s.inst)
    (off : Nat) : t.bufByte off = s.bufByte off := by
  unfold State.bufByte
  rw [hd, hm, hi]

/-- Outside the offsets of DIGEST a byte of memory is a byte of MSG. -/
theorem bufByte_congr_outside_digest {s t : State} (hm : t.msg = s.msg) (hi : t.inst = s.inst) {off : Nat}
    (ho : off < 0x200 ∨ 0x280 ≤ off) : t.bufByte off = s.bufByte off := by
  have hout : ¬ (digestBase ≤ off ∧ off < digestBase + digestSize) := by
    unfold digestBase digestSize; omega
  unfold State.bufByte
  rw [if_neg hout, if_neg hout, hm, hi]

/-- Settles O58: what every command keeps, and of memory the bytes of MSG always, those of DIGEST unless the
command writes it. -/
theorem commandFrames : Obligations.CommandFrames := by
  intro i s t h
  have hk := exec_keeps h
  exact ⟨hk.msg, hk.len, hk.ie, hk.inst, hk.cmd, hk.werr, hk.aerr, hk.agenda, hk.rdata, hk.draws,
    fun hv => (hk.valid_iv hv).1,
    fun hi off => bufByte_congr (exec_digest h hi) hk.msg hk.inst off,
    fun _ ho => bufByte_congr_outside_digest hk.msg hk.inst ho⟩

end Sys2Proof.Machine
end

section
/-! The invariant of the engine holds at reset (O54) and every step keeps it (O55): one lemma per shared update
of the state, then commands and host writes by what they can do. -/

namespace Sys2Proof.Machine

open Sys2Proof

/-! ## The data registers as the invariant states them -/

theorem State.Inv.registersFit {s : State} (h : s.Inv) : s.RegistersFit where
  cv i hi := h.words_fit.cv ⟨i, hi⟩
  iv i hi := h.words_fit.iv ⟨i, hi⟩
  blk i hi := h.words_fit.blk ⟨i, hi⟩
  v i hi := h.words_fit.v ⟨i, hi⟩
  ks i hi := h.words_fit.ks ⟨i, hi⟩
  t i hi := h.words_fit.t ⟨i, hi⟩
  tweak_xor := h.tweak_xor

theorem State.RegistersFit.wordsFit {s : State} (h : s.RegistersFit) : s.WordsFit where
  cv i := h.cv i i.isLt
  iv i := h.iv i i.isLt
  blk i := h.blk i i.isLt
  v i := h.v i i.isLt
  ks i := h.ks i i.isLt
  t i := h.t i i.isLt

/-! ## Updates of the state that keep the invariant -/

/-- A change of the step registers that keeps them in order. -/
theorem State.Inv.of_sameOutsideStep {s u : State} (h : s.Inv) (same : SameOutsideStep s u)
    (fit : u.RegistersFit) : u.Inv where
  inst_wf := by rw [same.inst]; exact h.inst_wf
  words_fit := fit.wordsFit
  tweak_xor := fit.tweak_xor
  iv_value := by rw [same.iv, same.status, same.inst]; exact h.iv_value
  busy_running := by rw [same.status, same.inst, same.cmd]; exact h.busy_running
  msg_wf := by rw [same.msg]; exact h.msg_wf
  msg_range := by rw [same.msg, same.inst]; exact h.msg_range
  digest_whole := by rw [same.digest]; exact h.digest_whole

/-- The invariant says nothing about POS, LEN, CTRL and the model's own fields. -/
theorem State.Inv.withUntracked {s : State} (h : s.Inv) (pos : BitVec 64) (len : Word32) (ie : Bool)
    (agenda : List Event) (rdata : Word32) (draws : Nat) :
    ({ s with pos := pos, len := len, ie := ie, agenda := agenda, rdata := rdata, draws := draws } : State).Inv :=
  { h with words_fit := { h.words_fit with } }

/-- A new CMD and STATUS with the same valid bit, where a running command is as the invariant wants it. -/
theorem State.Inv.withStatus {s : State} (h : s.Inv) (c : Word32) (st : Status)
    (ivv : st.ivv = s.status.ivv)
    (running : st.busy = true → st.done = false ∧ st.err = .none ∧ legalWord s.inst.pluginPresent c = true) :
    ({ s with cmd := c, status := st } : State).Inv :=
  { h with
    words_fit := { h.words_fit with }
    iv_value := by simpa only [ivv] using h.iv_value
    busy_running := running }

/-- New contents of the two buffers. -/
theorem State.Inv.withBuffers {s : State} (h : s.Inv) (digest msg : Memory) (msg_wf : msg.wf)
    (msg_range : ∀ c ∈ msg, c.1 < s.inst.msgMax)
    (whole : digest = [] ∨ ∃ cs : List Byte, cs.length = digestSize ∧ digest = Memory.ofBytes 0 cs) :
    ({ s with digest := digest, msg := msg } : State).Inv :=
  { h with
    words_fit := { h.words_fit with }
    msg_wf := msg_wf
    msg_range := msg_range
    digest_whole := whole }

theorem State.Inv.popped {s : State} (h : s.Inv) : s.popped.Inv := h.withUntracked _ _ _ _ _ _

theorem State.Inv.complete {s : State} (h : s.Inv) (e : ErrCode) : (complete e s).Inv :=
  h.withStatus s.cmd _ rfl (by simp)

theorem State.Inv.dropWrite {s : State} (h : s.Inv) : (dropWrite s).Inv :=
  h.withStatus s.cmd _ rfl h.busy_running

theorem State.Inv.ignoreAccess {s : State} (h : s.Inv) : (ignoreAccess s).Inv :=
  h.withStatus s.cmd _ rfl h.busy_running

/-- Clearing DONE, WERR or AERR. -/
theorem State.Inv.clear {s : State} (h : s.Inv) (d : Word32) :
    ({ s with status := s.status.clear d } : State).Inv := by
  refine h.withStatus s.cmd (s.status.clear d) rfl fun hb => ?_
  obtain ⟨hdone, herr, hlegal⟩ := h.busy_running hb
  exact ⟨by rw [Status.clear_done, hdone, Bool.false_and], herr, hlegal⟩

/-- Only a legal word makes the engine BUSY (R190; log 9). -/
theorem State.Inv.issue {s : State} (h : s.Inv) (c : Word32) : (issue c s).Inv := by
  unfold Machine.issue
  split
  case isTrue hlegal => exact h.withStatus c _ rfl fun _ => ⟨rfl, rfl, hlegal⟩
  case isFalse => exact h.withStatus c _ rfl (by simp)

/-- Storing the initial chaining value as the IV (R157). -/
theorem State.Inv.storeIv {s : State} (h : s.Inv) (hcv : s.cv = initialCv s.inst) : (storeIv s).Inv :=
  { h with
    words_fit := { h.words_fit with iv := h.words_fit.cv }
    iv_value := hcv }

/-! ## Reset -/

theorem reset_ks : ∀ i : Fin 9, State.reset.ks[i] = 0 := by decide

theorem reset_t : ∀ i : Fin 3, State.reset.t[i] = 0 := by decide

theorem reset_tweak_xor : State.reset.t[2] = State.reset.t[0] ^^^ State.reset.t[1] := by decide

/-- After hardware reset every data word is 0, and so T is a tweak. -/
theorem hardReset_registersFit (s : State) : (hardReset s).RegistersFit where
  cv := fitsVec_zero _
  iv := fitsVec_zero _
  blk := fitsVec_zero _
  v := fitsVec_zero _
  ks i hi := (reset_ks ⟨i, hi⟩).symm ▸ fits_zero _
  t i hi := (reset_t ⟨i, hi⟩).symm ▸ fits_zero _
  tweak_xor := reset_tweak_xor

/-- Hardware reset meets the invariant from any state, if the build-time parameters are as R7 requires
(R47, R215). -/
theorem hardReset_inv {s : State} (h : s.inst.wf) : (hardReset s).Inv where
  inst_wf := h
  words_fit := (hardReset_registersFit s).wordsFit
  tweak_xor := (hardReset_registersFit s).tweak_xor
  iv_value := rfl
  busy_running hb := absurd hb Bool.false_ne_true
  msg_wf := List.Pairwise.nil
  msg_range := by simp [State.reset]
  digest_whole := .inl rfl

/-- Soft reset is hardware reset with MSG and DIGEST kept (R217). -/
theorem softReset_inv {s : State} (h : s.Inv) : (softReset s).Inv :=
  (hardReset_inv h.inst_wf).withBuffers s.digest s.msg h.msg_wf h.msg_range h.digest_whole

/-! ## Commands -/

theorem digestImage_whole (cs : List Byte) :
    ∃ bs : List Byte, bs.length = digestSize ∧ digestImage cs = Memory.ofBytes 0 bs :=
  ⟨_, by simp, rfl⟩

/-- The effect of a command keeps the invariant.  INIT stores the result of the configuration phase from
CV = 0, which is the initial chaining value of these parameters (R154, R157). -/
theorem CommandEffect.inv {s u : State} {i : Instr} (hu : CommandEffect s i u) (h : s.Inv) : u.Inv := by
  cases hu with
  | step _ same fit => exact h.of_sameOutsideStep same (fit h.registersFit)
  | init _ _ =>
    have hclear : ({ s with cv := Vec8.zero } : State).Inv :=
      h.of_sameOutsideStep (sameOutsideStep_registers _ _ _ _ _ _ _) (h.registersFit.withCv (fitsVec_zero _))
    have hconfig := hclear.of_sameOutsideStep (configPhase_frame _) (hclear.registersFit.ubi _ _)
    exact hconfig.storeIv (by rw [configPhase_initialCv, configPhase_inst])
  | digest _ u same fit cs =>
    have hu := h.of_sameOutsideStep same (fit h.registersFit)
    exact hu.withBuffers _ u.msg hu.msg_wf hu.msg_range (.inr (digestImage_whole cs))

theorem exec_inv {i : Instr} {s t : State} (h : s.Inv) (hx : exec i s = .next t) : t.Inv := by
  obtain ⟨e, u, hu, rfl⟩ := exec_ends hx
  exact (hu.inv h).complete e

/-! ## Host accesses -/

/-- A word after a host write of one half still has `W` bits: in SK256 the low half is the whole word. -/
theorem fits_setWordHalf {p : Profile} (high : Bool) {w : Word} (d : Word32) (h : FitsWord p w) :
    FitsWord p (setWordHalf p high w d) := by
  cases p
  · exact BitVec.isLt _
  · cases high
    · have hhigh : w.extractLsb' 32 32 = 0#32 := by
        apply BitVec.eq_of_toNat_eq
        have : w.toNat < 2 ^ 32 := h
        simp only [BitVec.extractLsb'_toNat, Nat.shiftRight_eq_div_pow, BitVec.toNat_ofNat]
        omega
      simp only [setWordHalf, hhigh, FitsWord, BitVec.toNat_append]
      simpa [Profile.width] using d.isLt
    · exact h

theorem hostRead_inv {s : State} (h : s.Inv) (off : Nat) (size : Size) : (hostRead off size s).Inv := by
  obtain ⟨r, hr | hr⟩ := hostRead_cases off size s <;> rw [hr]
  · exact h.withUntracked _ _ _ _ _ _
  · exact h.ignoreAccess.withUntracked _ _ _ _ _ _

/-- A host write keeps the invariant, if it writes no byte of MSG beyond MSG_MAX. -/
theorem WriteEffect.inv {s t : State} (ht : WriteEffect s t) (h : s.Inv)
    (range : ∀ c ∈ t.msg, c.1 < s.inst.msgMax) : t.Inv := by
  cases ht with
  | none => exact h
  | drop _ => exact h.dropWrite
  | ignore => exact h.ignoreAccess
  | issue _ c => exact h.issue c
  | clear d => exact h.clear d
  | reset => exact softReset_inv h
  | ie b => exact h.withUntracked _ _ b _ _ _
  | len _ d => exact h.withUntracked _ d _ _ _ _
  | pos _ q => exact h.withUntracked q _ _ _ _ _
  | cv _ i high d =>
    have fit := fitsVec_set h.registersFit.cv (fits_setWordHalf high d (h.words_fit.cv i)) i i.isLt
    exact h.of_sameOutsideStep (sameOutsideStep_registers _ _ _ _ _ _ _) (h.registersFit.withCv fit)
  | blk _ i high d =>
    have fit := fitsVec_set h.registersFit.blk (fits_setWordHalf high d (h.words_fit.blk i)) i i.isLt
    exact h.of_sameOutsideStep (sameOutsideStep_registers _ _ _ _ _ _ _) (h.registersFit.withBlk s.pos fit)
  | msg _ j bs _ _ =>
    exact h.withBuffers s.digest _ (Memory.writeRange_wf bs _ j h.msg_wf) range h.digest_whole

theorem hostWrite_inv {s : State} (h : s.Inv) {off : Nat} (size : Size) (d : Word32)
    (ho : off < windowSize s.inst) : (hostWrite off size d s).Inv := by
  obtain ⟨-, blocks, -⟩ := h.inst_wf
  exact (hostWrite_effect off size d s).inv h (hostWrite_msg_range blocks ho h.msg_range)

/-! ## The statements -/

/-- Settles O54: the default parameters are as R7 requires, and the reset state is a hardware reset of itself. -/
theorem resetMeetsTheInvariant : Obligations.ResetMeetsTheInvariant :=
  hardReset_inv (s := State.reset) (by decide)

/-- Settles O55, by the cases of a step: a turn of the engine, a reset, or a host access in the window. -/
theorem stepKeepsTheInvariant : Obligations.StepKeepsTheInvariant := by
  intro s t h hstep
  have hp := h.popped
  cases step_effect hstep with
  | idle _ => exact hp
  | command _ i _ _ hx => exact exec_inv hp hx
  | illegal _ _ _ => exact hp.complete .badCommand
  | reset => exact hardReset_inv hp.inst_wf
  | read off size _ => exact hostRead_inv hp off size
  | write off size d ho => exact hostWrite_inv hp size d ho

end Sys2Proof.Machine
end

section
/-! What a step can stop for (O11), that no step changes the build-time parameters (O56), and what writes IV (O57). -/

namespace Sys2Proof.Machine

open Sys2Proof

/-! ## How a command can stop -/

/-- How a command at `s` can answer: with a next state, or with the fault of an unwritten byte of MSG below an
accepted LEN (R47, R219; log 15). -/
inductive CommandOutcome (s : State) : Result → Prop where
  | next (t : State) : CommandOutcome s (.next t)
  | unwritten (accepted : s.LenAccepted) (j : Nat) (below : j < s.len.toNat) (no_byte : s.msg.read j = none) :
      CommandOutcome s (.fault .unwrittenMsg)

theorem finish_outcome (s u : State) : CommandOutcome s (finish u) := .next _

theorem raise_outcome (s : State) (e : ErrCode) : CommandOutcome s (raise e s) := .next _

/-- Some byte of a message that cannot be read has not been written. -/
theorem messageData_eq_none (s : State) :
    messageData s = none ↔ ∃ j, j < s.len.toNat ∧ s.msg.read j = none := by
  simp only [messageData, Memory.readRange_eq_none, Nat.zero_add]

/-- Some byte of a block that cannot be read has not been written, and it lies below LEN. -/
theorem unwritten_of_messageBlock {s : State} {k : Nat} (h : messageBlock s k = none) :
    ∃ j, j < s.len.toNat ∧ s.msg.read j = none := by
  obtain ⟨b, hb, hread⟩ := (Memory.readRange_eq_none _ _ _).1 h
  exact ⟨k * s.inst.profile.blockBytes + b, by omega, hread⟩

theorem withMessage_outcome (s : State) (f : List Byte → State) : CommandOutcome s (withMessage s f) := by
  unfold withMessage
  cases herr : inputError s with
  | some e => exact raise_outcome s e
  | none =>
    cases hdata : messageData s with
    | some d => exact finish_outcome s _
    | none =>
      obtain ⟨j, hj, hread⟩ := (messageData_eq_none s).1 hdata
      exact .unwritten ((inputError_eq_none s).1 herr) j hj hread

theorem execLoadblk_outcome (k : BitVec 8) (s : State) : CommandOutcome s (execLoadblk k s) := by
  unfold execLoadblk
  cases herr : inputError s with
  | some e => exact raise_outcome s e
  | none =>
    by_cases hk : nblocks s.inst s.len.toNat ≤ k.toNat
    · simp only [if_pos hk]
      exact raise_outcome s .badArg
    · simp only [if_neg hk]
      cases hblock : messageBlock s k.toNat with
      | some d => exact finish_outcome s _
      | none =>
        obtain ⟨j, hj, hread⟩ := unwritten_of_messageBlock hblock
        exact .unwritten ((inputError_eq_none s).1 herr) j hj hread

/-- Only the four commands that read MSG can stop; the others complete. -/
theorem exec_outcome (i : Instr) (s : State) : CommandOutcome s (exec i s) := by
  cases i with
  | init => simp only [exec, execInit]; split <;> exact finish_outcome _ _
  | hash =>
    simp only [exec, execHash]
    split
    · exact withMessage_outcome s _
    · exact raise_outcome s .noIv
  | loadiv =>
    simp only [exec, execLoadiv]
    split
    · exact finish_outcome _ _
    · exact raise_outcome s .noIv
  | ubi type => exact withMessage_outcome s _
  | gfold => exact withMessage_outcome s _
  | loadblk k => exact execLoadblk_outcome k s
  | nop | clearcv | config | output | format | ksched | tweak _ _ _ | vload | inject _ | round _ | encrypt
  | feedfwd | block _ _ _ => exact finish_outcome s _

/-! ## How a step can stop -/

/-- How a step at `s` can answer: with a next state, with the fault of a host access outside the window (R55;
log 14), or with a running command's. -/
inductive StepOutcome (s : State) : Result → Prop where
  | next (t : State) : StepOutcome s (.next t)
  | outside (addr : Nat) (size : Size) (d : Word32) (rest : List Event)
      (outside : windowOffset s.inst addr = none)
      (access : s.agenda = .access (.read addr size) :: rest ∨ s.agenda = .access (.write addr size d) :: rest) :
      StepOutcome s (.fault .outsideWindow)
  | unwritten (busy : s.status.busy = true) (accepted : s.LenAccepted) (j : Nat) (below : j < s.len.toNat)
      (no_byte : s.msg.read j = none) : StepOutcome s (.fault .unwrittenMsg)

/-- A running command's answer does not depend on the agenda. -/
theorem CommandOutcome.stepOutcome {s : State} {rest : List Event} {r : Result}
    (h : CommandOutcome { s with agenda := rest } r) (busy : s.status.busy = true) : StepOutcome s r := by
  cases h with
  | next t => exact .next t
  | unwritten accepted j below no_byte => exact .unwritten busy accepted j below no_byte

/-- The engine's turn, with any agenda left over. -/
theorem engineTurn_outcome (s : State) (rest : List Event) :
    StepOutcome s (engineTurn { s with agenda := rest }) := by
  cases hbusy : s.status.busy
  · rw [engineTurn_of_idle (s := { s with agenda := rest }) hbusy]
    exact .next _
  · cases hdecode : decode s.inst.pluginPresent s.cmd with
    | ok i =>
      rw [engineTurn_of_busy (s := { s with agenda := rest }) hbusy hdecode]
      exact (exec_outcome i _).stepOutcome hbusy
    | error w =>
      simp only [engineTurn, hbusy, hdecode, if_true]
      exact .next _

theorem hostAccess_outcome {s : State} {a : Access} {rest : List Event} (h : s.agenda = .access a :: rest) :
    StepOutcome s (hostAccess a { s with agenda := rest }) := by
  cases a with
  | read addr size =>
    cases hoff : windowOffset s.inst addr with
    | some off => simp only [hostAccess, hoff]; exact .next _
    | none =>
      rw [hostAccess_read_outside size (s := { s with agenda := rest }) hoff]
      exact .outside addr size 0 rest hoff (.inl h)
  | write addr size d =>
    cases hoff : windowOffset s.inst addr with
    | some off => simp only [hostAccess, hoff]; exact .next _
    | none =>
      rw [hostAccess_write_outside size d (s := { s with agenda := rest }) hoff]
      exact .outside addr size d rest hoff (.inr h)

theorem step_outcome (s : State) : StepOutcome s (step s) := by
  cases hagenda : s.agenda with
  | nil =>
    rw [step_of_agenda_nil hagenda]
    exact engineTurn_outcome s s.agenda
  | cons e rest =>
    cases e with
    | access a => rw [step_of_access hagenda]; exact hostAccess_outcome hagenda
    | engine => rw [step_of_engine hagenda]; exact engineTurn_outcome s rest
    | reset => rw [step_of_reset hagenda]; exact .next _

/-- Settles O11: none of the ways a step can answer is a refusal, and two are faults. -/
theorem stepStopsOnlyForTwoReasons : Obligations.StepStopsOnlyForTwoReasons := by
  intro s
  have houtcome := step_outcome s
  constructor
  · intro r hr
    rw [hr] at houtcome
    cases houtcome
  · intro f hf
    rw [hf] at houtcome
    cases houtcome with
    | outside addr size d rest houtside haccess =>
      have haddr := (windowOffset_eq_none s.inst addr).1 houtside
      rw [windowSize, ← Nat.add_assoc] at haddr
      exact .inl ⟨rfl, addr, size, d, rest, haddr, haccess⟩
    | unwritten busy accepted j below no_byte => exact .inr ⟨rfl, busy, accepted, j, below, no_byte⟩

/-! ## The build-time parameters -/

theorem hostRead_inst (off : Nat) (size : Size) (s : State) : (hostRead off size s).inst = s.inst := by
  obtain ⟨r, hr | hr⟩ := hostRead_cases off size s
  · rw [hr]
  · rw [hr]
    exact ignoreAccess_inst s

@[simp] theorem issue_inst (c : Word32) (s : State) : (issue c s).inst = s.inst := by
  unfold issue
  split <;> rfl

theorem WriteEffect.inst_eq {s t : State} (h : WriteEffect s t) : t.inst = s.inst := by
  cases h with
  | issue _ c => exact issue_inst c s
  | none | drop | ignore | clear | reset | ie | len | pos | cv | blk | msg => rfl

/-- Settles O56, by the cases of a step: a command keeps the build-time parameters, and so do both
resets and every host access. -/
theorem instanceIsConstant : Obligations.InstanceIsConstant := by
  intro s t hstep
  cases step_effect hstep with
  | command _ i _ _ hx => exact (exec_keeps hx).inst
  | read off size _ => exact hostRead_inst off size s.popped
  | write off size d _ => exact (hostWrite_effect off size d s.popped).inst_eq
  | idle | illegal | reset => rfl

/-! ## The IV -/

theorem reset_vectors : ∀ i : Fin 8, State.reset.cv[i] = 0 ∧ State.reset.iv[i] = 0 ∧ State.reset.blk[i] = 0 ∧
    State.reset.v[i] = 0 := by decide

theorem reset_status_word : State.reset.status.word = 0 := by decide

/-- Hardware reset resets every register (R215). -/
theorem hardReset_registersReset (s : State) : (hardReset s).RegistersReset where
  vectors := reset_vectors
  ks := reset_ks
  t := reset_t
  pos := rfl
  len := rfl
  cmd := rfl
  status := reset_status_word
  ie := rfl

/-- Soft reset, which keeps the two buffers besides, resets the same registers (R217). -/
theorem softReset_registersReset (s : State) : (softReset s).RegistersReset :=
  { hardReset_registersReset s with }

/-- IV and its valid bit are the same in both states. -/
def IvKept (s t : State) : Prop := t.iv = s.iv ∧ t.status.ivv = s.status.ivv

theorem hostRead_ivKept (off : Nat) (size : Size) (s : State) : IvKept s (hostRead off size s) := by
  obtain ⟨r, hr | hr⟩ := hostRead_cases off size s <;> rw [hr] <;> exact ⟨rfl, rfl⟩

theorem issue_ivKept (c : Word32) (s : State) : IvKept s (issue c s) := by
  unfold issue
  split <;> exact ⟨rfl, rfl⟩

/-- A host write keeps IV, unless it is the soft reset. -/
theorem WriteEffect.ivKept_or_reset {s t : State} (h : WriteEffect s t) : IvKept s t ∨ t.RegistersReset := by
  cases h with
  | issue _ c => exact .inl (issue_ivKept c s)
  | reset => exact .inr (softReset_registersReset s)
  | none | drop | ignore | clear | ie | len | pos | cv | blk | msg => exact .inl ⟨rfl, rfl⟩

/-- What a step can do to IV: keep it, reset everything, or run INIT on an IV that is not valid. -/
theorem step_iv {s t : State} (h : step s = .next t) :
    IvKept s t ∨ t.RegistersReset ∨
      (s.status.busy = true ∧ decode s.inst.pluginPresent s.cmd = .ok .init ∧ s.status.ivv = false ∧
        t.status.ivv = true) := by
  cases step_effect h with
  | idle _ => exact .inl ⟨rfl, rfl⟩
  | command hbusy i hdecode _ hx =>
    obtain hkept | ⟨rfl, hinvalid, hvalid⟩ := exec_iv hx
    · exact .inl hkept
    · exact .inr (.inr ⟨hbusy, hdecode, hinvalid, hvalid⟩)
  | illegal _ _ _ => exact .inl ⟨rfl, rfl⟩
  | reset => exact .inr (.inl (hardReset_registersReset _))
  | read off size _ => exact .inl (hostRead_ivKept off size s.popped)
  | write off size d _ =>
    obtain hkept | hreset := (hostWrite_effect off size d s.popped).ivKept_or_reset
    · exact .inl hkept
    · exact .inr (.inl hreset)

/-- Settles O57: of the three things a step can do to IV, INIT's is excluded where IVV = 1. -/
theorem ivIsWrittenOnce : Obligations.IvIsWrittenOnce := by
  intro s t hstep
  constructor
  · intro hvalid
    obtain ⟨hiv, hivv⟩ | hreset | ⟨-, -, hinvalid, -⟩ := step_iv hstep
    · exact .inl ⟨hiv, hivv.trans hvalid⟩
    · exact .inr hreset
    · exact absurd hvalid (by simp [hinvalid])
  · intro hinvalid
    obtain ⟨hiv, hivv⟩ | hreset | ⟨hbusy, hdecode, -, hvalid⟩ := step_iv hstep
    · exact .inl ⟨hiv, hivv.trans hinvalid⟩
    · exact .inr (.inl hreset)
    · exact .inr (.inr ⟨hbusy, hdecode, hvalid⟩)

end Sys2Proof.Machine
end

section
/-! The host's accesses to the registers: the control registers (O15, O16, O25), what BUSY does to a write and to a
read (O17, O22), and the high halves of SK256 (O19). -/

namespace Sys2Proof.Machine

open Sys2Proof

/-! ## The control registers by their offsets (R55), with the access legal there (R54) -/

theorem locate_cmd : legalAccess 0x000 .word = true ∧ locate 0x000 = .cmd := ⟨rfl, rfl⟩

theorem locate_status : legalAccess 0x004 .word = true ∧ locate 0x004 = .status := ⟨rfl, rfl⟩

theorem locate_ctrl : legalAccess 0x008 .word = true ∧ locate 0x008 = .ctrl := ⟨rfl, rfl⟩

theorem locate_len : legalAccess 0x00C .word = true ∧ locate 0x00C = .len := ⟨rfl, rfl⟩

theorem locate_posLo : legalAccess 0x010 .word = true ∧ locate 0x010 = .posLo := ⟨rfl, rfl⟩

theorem locate_posHi : legalAccess 0x014 .word = true ∧ locate 0x014 = .posHi := ⟨rfl, rfl⟩

theorem locate_id : legalAccess 0x018 .word = true ∧ locate 0x018 = .id := ⟨rfl, rfl⟩

theorem locate_msgMax : legalAccess 0x01C .word = true ∧ locate 0x01C = .msgMax := ⟨rfl, rfl⟩

/-! ## Host reads -/

/-- A read of a register no command writes, BUSY or not, returns the stored value (R38, R45). -/
theorem hostRead_rdata_of_stable {off : Nat} {target : Target}
    (h : legalAccess off .word = true ∧ locate off = target) (stable : target.volatile = false) (s : State) :
    (hostRead off .word s).rdata = readTarget s .word (Config.freeRead s.draws) target := by
  simp only [hostRead_at h, stable, Bool.and_false, Bool.false_eq_true, if_false, Size.mask]

/-- While idle a read returns the stored value (R38). -/
theorem hostRead_rdata_of_idle {off : Nat} {target : Target}
    (h : legalAccess off .word = true ∧ locate off = target) {s : State} (idle : s.status.busy = false) :
    (hostRead off .word s).rdata = readTarget s .word (Config.freeRead s.draws) target := by
  simp only [hostRead_at h, idle, Bool.false_and, Bool.false_eq_true, if_false, Size.mask]

/-- While BUSY a read of a register a command may be writing returns the free value (R45; log 4). -/
theorem hostRead_of_busy {off : Nat} {size : Size} {target : Target}
    (h : legalAccess off size = true ∧ locate off = target) (volatile : target.volatile = true) {s : State}
    (busy : s.status.busy = true) :
    hostRead off size s
      = { s with rdata := size.mask (Config.freeRead s.draws), draws := s.draws + 1 } := by
  simp only [hostRead_at h, busy, volatile, Bool.and_true, if_true]

/-- A narrow read carries the low bytes of the bus word (R51; log 16). -/
theorem Size.mask_eq (size : Size) (d : Word32) :
    size.mask d = BitVec.ofNat 32 (d.toNat % 2 ^ (8 * size.bytes)) := by
  apply BitVec.eq_of_toNat_eq
  cases size
  · simp [Size.mask, Size.bytes]
  · simp [Size.mask, Size.bytes]
  · have := d.isLt
    simp only [Size.mask, Size.bytes, BitVec.toNat_ofNat]
    omega

/-! ## The bits of STATUS, CTRL and ID (R31, R32, R34) -/

/-- Which field of a concatenation bit `n` falls in, counted from bit 0. -/
theorem sub_lt_iff_lt_add_of_pos {n k w : Nat} (h : 0 < w) : n - k < w ↔ n < k + w := by omega

/-- Bit `n` of STATUS, field by field from bit 0. -/
theorem Status.word_getLsbD (st : Status) (n : Nat) : st.word.getLsbD n =
    if n < 1 then (BitVec.ofBool st.busy).getLsbD n
    else if n < 2 then (BitVec.ofBool st.done).getLsbD (n - 1)
    else if n < 3 then (BitVec.ofBool st.ivv).getLsbD (n - 2)
    else if n < 4 then false
    else if n < 8 then st.err.code.getLsbD (n - 4)
    else if n < 9 then (BitVec.ofBool st.werr).getLsbD (n - 8)
    else if n < 10 then (BitVec.ofBool st.aerr).getLsbD (n - 9)
    else false := by
  change BitVec.getLsbD (w := 22 + 1 + 1 + 4 + 1 + 1 + 1 + 1) _ n = _
  simp only [Status.word, BitVec.getLsbD_append, BitVec.getLsbD_zero]
  simp only [sub_lt_iff_lt_add_of_pos, Nat.sub_sub, Nat.reduceAdd, Nat.reduceLT]

theorem ctrlWord_getLsbD (ie : Bool) (n : Nat) : (ctrlWord ie).getLsbD n =
    if n < 1 then (BitVec.ofBool ie).getLsbD n else false := by
  change BitVec.getLsbD (w := 30 + 1 + 1) _ n = _
  simp only [ctrlWord, BitVec.getLsbD_append, BitVec.getLsbD_zero, ite_self]

theorem idWord_getLsbD (c : Instance) (n : Nat) : (idWord c).getLsbD n =
    if n < 8 then (BitVec.ofNat 8 c.profile.width).getLsbD n
    else if n < 16 then (0x08#8).getLsbD (n - 8)
    else if n < 24 then (0x01#8).getLsbD (n - 16)
    else if n < 25 then (BitVec.ofBool c.pluginPresent).getLsbD (n - 24)
    else if n < 26 then (BitVec.ofBool c.alignedExtraBlock).getLsbD (n - 25)
    else false := by
  change BitVec.getLsbD (w := 6 + 1 + 1 + 8 + 8 + 8) _ n = _
  simp only [idWord, BitVec.getLsbD_append, BitVec.getLsbD_zero]
  simp only [sub_lt_iff_lt_add_of_pos, Nat.sub_sub, Nat.reduceAdd, Nat.reduceLT]

theorem extractLsb'_eq_of_bits {w : Nat} {x : BitVec w} {start len : Nat} {y : BitVec len}
    (h : ∀ i, i < len → x.getLsbD (start + i) = y.getLsbD i) : x.extractLsb' start len = y := by
  apply BitVec.eq_of_getLsbD_eq
  intro i hi
  rw [BitVec.getLsbD_extractLsb', h i hi, decide_eq_true hi, Bool.true_and]

theorem Status.word_bits (st : Status) :
    st.word.getLsbD 0 = st.busy ∧ st.word.getLsbD 1 = st.done ∧ st.word.getLsbD 2 = st.ivv ∧
    st.word.getLsbD 3 = false ∧ st.word.extractLsb' 4 4 = st.err.code ∧ st.word.getLsbD 8 = st.werr ∧
    st.word.getLsbD 9 = st.aerr ∧ ∀ n, 10 ≤ n → st.word.getLsbD n = false := by
  have herr : st.word.extractLsb' 4 4 = st.err.code := by
    refine extractLsb'_eq_of_bits fun i hi => ?_
    rw [Status.word_getLsbD]
    interval_cases i <;> rfl
  have hreserved : ∀ n, 10 ≤ n → st.word.getLsbD n = false := by
    intro n hn
    have hbeyond : ∀ k, k ≤ 10 → ¬ n < k := by omega
    simp only [Status.word_getLsbD, hbeyond, Nat.reduceLeDiff, if_false]
  refine ⟨?_, ?_, ?_, ?_, herr, ?_, ?_, hreserved⟩ <;> rw [Status.word_getLsbD] <;> simp

theorem ctrlWord_bits (ie : Bool) :
    (ctrlWord ie).getLsbD 0 = ie ∧ ∀ n, 1 ≤ n → (ctrlWord ie).getLsbD n = false := by
  constructor
  · rw [ctrlWord_getLsbD]; simp
  · intro n hn
    rw [ctrlWord_getLsbD, if_neg (by omega)]

theorem idWord_bits (c : Instance) :
    (idWord c).extractLsb' 0 8 = BitVec.ofNat 8 c.profile.width ∧ (idWord c).extractLsb' 8 8 = 0x08 ∧
    (idWord c).extractLsb' 16 8 = 0x01 ∧ (idWord c).getLsbD 24 = c.pluginPresent ∧
    (idWord c).getLsbD 25 = c.alignedExtraBlock ∧ ∀ n, 26 ≤ n → (idWord c).getLsbD n = false := by
  refine ⟨extractLsb'_eq_of_bits ?_, extractLsb'_eq_of_bits ?_, extractLsb'_eq_of_bits ?_, ?_, ?_, ?_⟩
  · intro i hi
    rw [idWord_getLsbD, Nat.zero_add, if_pos hi]
  · intro i hi
    rw [idWord_getLsbD]
    interval_cases i <;> rfl
  · intro i hi
    rw [idWord_getLsbD]
    interval_cases i <;> rfl
  · rw [idWord_getLsbD]; simp
  · rw [idWord_getLsbD]; simp
  · intro n hn
    have hbeyond : ∀ k, k ≤ 26 → ¬ n < k := by omega
    simp only [idWord_getLsbD, hbeyond, Nat.reduceLeDiff, if_false]

/-- Settles O16: the offset of each register, then its bits. -/
theorem controlRegisterReads : Obligations.ControlRegisterReads := by
  intro s got
  have hstatus : got 0x004 = s.status.word := hostRead_rdata_of_stable locate_status rfl s
  have hctrl : got 0x008 = ctrlWord s.ie := hostRead_rdata_of_stable locate_ctrl rfl s
  have hid : got 0x018 = idWord s.inst := hostRead_rdata_of_stable locate_id rfl s
  have hmax : got 0x01C = BitVec.ofNat 32 s.inst.msgMax := hostRead_rdata_of_stable locate_msgMax rfl s
  refine ⟨?frame, hostRead_rdata_of_stable locate_cmd rfl s, hostRead_rdata_of_stable locate_len rfl s,
    fun hidle => ⟨hostRead_rdata_of_idle locate_posLo hidle, hostRead_rdata_of_idle locate_posHi hidle⟩,
    ?status, ?ctrl, ?id, ?msgMax⟩
  case frame =>
    intro off hoff
    have hlegal : ∀ off ∈ [0x000, 0x004, 0x008, 0x00C, 0x010, 0x014, 0x018, 0x01C],
        legalAccess off .word = true := by decide
    have hread := hostRead_of_legal (hlegal off hoff) s
    simp only [got, hread]
  case status =>
    rw [hstatus]
    exact s.status.word_bits
  case ctrl =>
    rw [hctrl]
    exact ctrlWord_bits s.ie
  case id =>
    rw [hid]
    obtain ⟨hwidth, hrest⟩ := idWord_bits s.inst
    refine ⟨hwidth.trans ?_, hrest⟩
    cases s.inst.profile <;> rfl
  case msgMax =>
    intro ⟨_, _, hlt⟩
    rw [hmax, BitVec.toNat_ofNat, Nat.mod_eq_of_lt hlt]

/-- Settles O22: every one of these registers may be the running command's to write. -/
theorem busyReadsAreFree : Obligations.BusyReadsAreFree := by
  intro s i h hbusy hh free
  refine ⟨hostRead_of_busy locate_posLo rfl hbusy, hostRead_of_busy locate_posHi rfl hbusy, ?vectors, ?ks, ?t,
    ?digest⟩
  case vectors =>
    intro hi
    exact ⟨hostRead_of_busy (locate_cv hi hh) rfl hbusy, hostRead_of_busy (locate_iv hi hh) rfl hbusy,
      hostRead_of_busy (locate_blk hi hh) rfl hbusy, hostRead_of_busy (locate_v hi hh) rfl hbusy⟩
  case ks => exact fun hi => hostRead_of_busy (locate_ks hi hh) rfl hbusy
  case t => exact fun hi => hostRead_of_busy (locate_t hi hh) rfl hbusy
  case digest =>
    intro j size hj haligned
    rw [hostRead_of_busy (locate_digest size hj haligned) rfl hbusy, Size.mask_eq]

/-! ## Host writes -/

/-- A write while BUSY to a register that only an idle engine takes (R40). -/
theorem hostWrite_of_busy {off : Nat} {size : Size} {target : Target}
    (h : legalAccess off size = true ∧ locate off = target) {d : Word32} {s f : State}
    (hwrite : writeTarget size d s target = whenIdle s f) (busy : s.status.busy = true) :
    hostWrite off size d s = dropWrite s := by
  rw [hostWrite_at h, hwrite, whenIdle_of_busy busy]

/-- The same write while idle. -/
theorem hostWrite_of_idle {off : Nat} {size : Size} {target : Target}
    (h : legalAccess off size = true ∧ locate off = target) {d : Word32} {s f : State}
    (hwrite : writeTarget size d s target = whenIdle s f) (idle : s.status.busy = false) :
    hostWrite off size d s = f := by
  rw [hostWrite_at h, hwrite, whenIdle_of_idle idle]

/-- A write to STATUS clears W1C bits, BUSY or not (R31). -/
theorem hostWrite_status (d : Word32) (s : State) :
    hostWrite 0x004 .word d s = { s with status := s.status.clear d } :=
  hostWrite_at locate_status d s

/-- A write to CTRL with SRST is the soft reset, BUSY or not (R32, R217). -/
theorem hostWrite_ctrl_of_srst {d : Word32} (h : d.getLsbD 1 = true) (s : State) :
    hostWrite 0x008 .word d s = softReset s := by
  rw [hostWrite_at locate_ctrl]
  exact if_pos h

/-- A write to CTRL without SRST sets IE, BUSY or not (R32). -/
theorem hostWrite_ctrl_of_no_srst {d : Word32} (h : d.getLsbD 1 = false) (s : State) :
    hostWrite 0x008 .word d s = { s with ie := d.getLsbD 0 } := by
  rw [hostWrite_at locate_ctrl]
  exact if_neg (by rw [h]; exact Bool.false_ne_true)

/-- Settles O15. -/
theorem statusAndCtrlWrites : Obligations.StatusAndCtrlWrites :=
  fun s d => ⟨hostWrite_status d s, fun h => hostWrite_ctrl_of_no_srst h s⟩

/-- Settles O17: each of these registers is one that only an idle engine takes a write to; STATUS and CTRL are
not. -/
theorem busyDropsWrites : Obligations.BusyDropsWrites := by
  intro s d hbusy dropped
  refine ⟨?control, ?slots, ?msg, hostWrite_status d s, fun h => hostWrite_ctrl_of_no_srst h s, ?srst⟩
  case control =>
    simp only [List.forall_mem_cons]
    exact ⟨hostWrite_of_busy locate_cmd rfl hbusy, hostWrite_of_busy locate_len rfl hbusy,
      hostWrite_of_busy locate_posLo rfl hbusy, hostWrite_of_busy locate_posHi rfl hbusy, by simp⟩
  case slots =>
    intro i h hi hh
    exact ⟨hostWrite_of_busy (locate_cv hi hh) rfl hbusy, hostWrite_of_busy (locate_blk hi hh) rfl hbusy⟩
  case msg =>
    intro j size _ haligned
    exact hostWrite_of_busy (locate_msg size haligned) rfl hbusy
  case srst =>
    intro h
    rw [hostWrite_ctrl_of_srst h]
    exact softReset_registersReset s

/-- Settles O25: each half of POS keeps the other, so the two writes give the whole of it. -/
theorem lenAndPosWrites : Obligations.LenAndPosWrites := by
  intro s d lo hi hidle
  have hlo : hostWrite 0x010 .word lo s = { s with pos := s.pos.extractLsb' 32 32 ++ lo } :=
    hostWrite_of_idle locate_posLo rfl hidle
  have hhi : ∀ u : State, u.status.busy = false →
      hostWrite 0x014 .word hi u = { u with pos := hi ++ u.pos.extractLsb' 0 32 } :=
    fun u hu => hostWrite_of_idle locate_posHi rfl hu
  have hboth : hostWrite 0x014 .word hi (hostWrite 0x010 .word lo s) = { s with pos := hi ++ lo } := by
    rw [hlo, hhi, low_half]
    exact hidle
  refine ⟨hostWrite_of_idle locate_len rfl hidle, ?both, by rw [hlo], by rw [hhi s hidle]⟩
  case both =>
    intro t
    have ht : t = { s with pos := hi ++ lo } := hboth
    have htidle : t.status.busy = false := by rw [ht]; exact hidle
    refine ⟨ht, ?_, ?_⟩
    · rw [hostRead_rdata_of_idle locate_posLo htidle, ht]
      exact low_half hi lo
    · rw [hostRead_rdata_of_idle locate_posHi htidle, ht]
      exact high_half hi lo

/-! ## The high halves of SK256 (R46) -/

/-- A write to the high half of a read-only slot of SK256 is ignored without AERR (log 11). -/
theorem ignoreSlot_high_sk256 {s : State} (h : s.inst.profile = .sk256) : ignoreSlot true s = s := by
  simp only [ignoreSlot, h]

/-- Writing the high half of word `i` of a vector of SK256 leaves the vector. -/
theorem set_high_sk256 {p : Profile} (h : p = .sk256) (v : Vec8) (i : Fin 8) (d : Word32) :
    v.set i (setWordHalf p true v[i] d) = v := by
  subst h
  simp [setWordHalf]

theorem writeTarget_cv_high_sk256 {s : State} (h : s.inst.profile = .sk256) (idle : s.status.busy = false)
    (i : Fin 8) (d : Word32) : writeTarget .word d s (.cv i true) = s :=
  (whenIdle_of_idle idle _).trans (by rw [set_high_sk256 h])

theorem writeTarget_blk_high_sk256 {s : State} (h : s.inst.profile = .sk256) (idle : s.status.busy = false)
    (i : Fin 8) (d : Word32) : writeTarget .word d s (.blk i true) = s :=
  (whenIdle_of_idle idle _).trans (by rw [set_high_sk256 h])

/-- The high half of a word of SK256 reads 0. -/
theorem wordHalf_high_sk256 {p : Profile} (h : p = .sk256) (w : Word) : wordHalf p true w = 0 := by
  subst h
  rfl

/-- A slot half that a write leaves alone and that holds 0 ignores a write and reads 0 while idle. -/
theorem high_half_ignores_writes_and_reads_zero {off : Nat} {target : Target}
    (h : legalAccess off .word = true ∧ locate off = target) {d : Word32} {s : State}
    (ignored : writeTarget .word d s target = s) (zero : ∀ free, readTarget s .word free target = 0) :
    hostWrite off .word d s = s ∧ (s.status.busy = false → (hostRead off .word s).rdata = 0) :=
  ⟨(hostWrite_at h d s).trans ignored, fun hidle => (hostRead_rdata_of_idle h hidle).trans (zero _)⟩

/-- Settles O19, slot by slot: a high half of CV or BLK takes a write while idle and does not change by it, one of
the other slots takes none. -/
theorem sk256HighHalvesReadZero : Obligations.Sk256HighHalvesReadZero := by
  intro s d off i hp hslot
  have hzero : ∀ w, wordHalf s.inst.profile true w = 0 := wordHalf_high_sk256 hp
  have hignored : ignoreSlot true s = s := ignoreSlot_high_sk256 hp
  have hhigh : 1 < 2 := by decide
  obtain ⟨hi, hoff, hidle⟩ | ⟨hi, hoff⟩ | ⟨hi, rfl⟩ | ⟨hi, rfl⟩ := hslot
  · obtain rfl | rfl : off = 0x040 + 8 * i ∨ off = 0x0C0 + 8 * i := by simpa using hoff
    · exact high_half_ignores_writes_and_reads_zero (locate_cv hi hhigh)
        (writeTarget_cv_high_sk256 hp hidle _ d) fun _ => hzero _
    · exact high_half_ignores_writes_and_reads_zero (locate_blk hi hhigh)
        (writeTarget_blk_high_sk256 hp hidle _ d) fun _ => hzero _
  · obtain rfl | rfl : off = 0x080 + 8 * i ∨ off = 0x100 + 8 * i := by simpa using hoff
    · exact high_half_ignores_writes_and_reads_zero (locate_iv hi hhigh) hignored fun _ => hzero _
    · exact high_half_ignores_writes_and_reads_zero (locate_v hi hhigh) hignored fun _ => hzero _
  · exact high_half_ignores_writes_and_reads_zero (locate_ks hi hhigh) hignored fun _ => hzero _
  · exact high_half_ignores_writes_and_reads_zero (locate_t hi hhigh) hignored fun _ => hzero _

end Sys2Proof.Machine
end

section
/-! The host's accesses to the slots, the buffers and the reserved offsets, and the ones R56 ignores (O18, O20, O21,
O23, O24, O26, O27). -/

namespace Sys2Proof.Machine

open Sys2Proof

/-! ## Accesses of the wrong width or alignment (R54, R56) -/

/-- Below 0x200 only a 4-byte access at a multiple of 4 is legal. -/
theorem legalAccess_low {off : Nat} (size : Size) (h : off < 0x200) :
    legalAccess off size = decide (size = .word ∧ off % 4 = 0) :=
  if_pos h

/-- Settles O20: in both parts of the window such an access is not a legal one. -/
theorem illegalAccessesSetAerr : Obligations.IllegalAccessesSetAerr := by
  intro s off size d h
  have hillegal : legalAccess off size = false := by
    obtain ⟨hlow, hbad⟩ | ⟨hhigh, hbad⟩ := h
    · rw [legalAccess_low size hlow, decide_eq_false_iff_not]
      rintro ⟨hword, haligned⟩
      exact hbad.elim (· hword) (· haligned)
    · rw [legalAccess_high size (by omega), decide_eq_false hbad]
  exact ⟨hostWrite_of_illegal hillegal d s, hostRead_of_illegal hillegal s⟩

/-! ## Reserved offsets (R57) -/

theorem controlTarget_reserved {n : Nat} (h : 8 ≤ n) : controlTarget n = .reserved := by
  obtain ⟨k, rfl⟩ := Nat.exists_eq_add_of_le' h
  rfl

/-- The reserved offsets between the control registers and CV. -/
theorem locate_reserved_control {off : Nat} (hlo : 0x020 ≤ off) (hhi : off < 0x040) :
    locate off = .reserved := by
  rw [locate, if_pos hhi, controlTarget_reserved (by omega)]

/-- The reserved offsets between T and DIGEST. -/
theorem locate_reserved_slots {off : Nat} (hlo : 0x1A0 ≤ off) (hhi : off < 0x200) :
    locate off = .reserved := by
  have hbeyond : ∀ n, n ≤ 0x1A0 → ¬ off < n := by omega
  simp only [locate, slotTarget, hbeyond, hhi, Nat.reduceLeDiff, if_false, if_true]

/-- The reserved offsets between DIGEST and MSG. -/
theorem locate_reserved_high {off : Nat} (hlo : 0x280 ≤ off) (hhi : off < 0x1000) :
    locate off = .reserved := by
  have hbeyond : ∀ n, n ≤ 0x280 → ¬ off < n := by omega
  simp only [locate, hbeyond, hhi, Nat.reduceLeDiff, if_false, if_true]

/-- A legal read that returns the stored value: the engine is idle, or no command writes the register (R38, R45,
R60). -/
theorem hostRead_stored {off : Nat} {size : Size} {target : Target}
    (h : legalAccess off size = true ∧ locate off = target) {s : State}
    (stored : s.status.busy = false ∨ target.volatile = false) :
    hostRead off size s = { s with
      rdata := readTarget s size (size.mask (Config.freeRead s.draws)) target
      draws := s.draws + 1 } := by
  have hstored : (s.status.busy && target.volatile) = false := by
    obtain h | h := stored <;> simp [h]
  rw [hostRead_at h, hstored, if_neg Bool.false_ne_true]

/-- Settles O21: in each of the three ranges the access is legal and names the reserved place. -/
theorem reservedOffsetsReadZero : Obligations.ReservedOffsetsReadZero := by
  intro s off size d h
  have hat : legalAccess off size = true ∧ locate off = .reserved := by
    obtain ⟨hrange, hword, haligned⟩ | ⟨hlo, hhi, haligned⟩ := h
    · refine ⟨?_, ?_⟩
      · rw [legalAccess_low size (by omega), decide_eq_true ⟨hword, haligned⟩]
      · obtain ⟨hlo, hhi⟩ | ⟨hlo, hhi⟩ := hrange
        · exact locate_reserved_control hlo hhi
        · exact locate_reserved_slots hlo hhi
    · exact ⟨by rw [legalAccess_high size (by omega), decide_eq_true haligned], locate_reserved_high hlo hhi⟩
  exact ⟨hostWrite_at hat d s, hostRead_stored hat (.inr rfl)⟩

/-! ## Word slots (R46, R53) -/

/-- Half `h` of a word slot is part of the stored word: the low half in both profiles, the high one in SK512. -/
abbrev HalfStored (p : Profile) (h : Nat) : Prop := h = 0 ∨ (h = 1 ∧ p = .sk512)

theorem HalfStored.lt_two {p : Profile} {h : Nat} (hh : HalfStored p h) : h < 2 := by
  obtain rfl | ⟨rfl, -⟩ := hh <;> decide

/-- A stored half is bits 31:0 or 63:32 of the word. -/
theorem wordHalf_stored {p : Profile} {h : Nat} (hh : HalfStored p h) (w : Word) :
    wordHalf p (h == 1) w = w.extractLsb' (32 * h) 32 := by
  obtain rfl | ⟨rfl, rfl⟩ := hh <;> rfl

/-- A write to a stored half of a read-only slot sets AERR (R56). -/
theorem ignoreSlot_stored {s : State} {h : Nat} (hh : HalfStored s.inst.profile h) :
    ignoreSlot (h == 1) s = ignoreAccess s := by
  obtain rfl | ⟨rfl, hp⟩ := hh
  · rfl
  · simp only [ignoreSlot, beq_self_eq_true, hp]

/-- While idle a read of a stored half returns it and changes nothing else. -/
theorem hostRead_slot {off h : Nat} {target : Target}
    (hat : legalAccess off .word = true ∧ locate off = target) {s : State} (idle : s.status.busy = false)
    (hh : HalfStored s.inst.profile h) {w : Word}
    (holds : ∀ free, readTarget s .word free target = wordHalf s.inst.profile (h == 1) w) :
    hostRead off .word s = { s with rdata := w.extractLsb' (32 * h) 32, draws := s.draws + 1 } := by
  rw [hostRead_stored hat (.inl idle), holds, wordHalf_stored hh]

/-- Settles O18: none of these registers has a write but the ignored one. -/
theorem readOnlyWritesSetAerr : Obligations.ReadOnlyWritesSetAerr := by
  intro s d ignored
  refine ⟨hostWrite_at locate_id d s, hostWrite_at locate_msgMax d s, ?slots, ?digest⟩
  case slots =>
    intro i h hh
    have hlt : h < 2 := HalfStored.lt_two hh
    have hslot : ignoreSlot (h == 1) s = ignored := ignoreSlot_stored hh
    exact ⟨fun hi => ⟨(hostWrite_at (locate_iv hi hlt) d s).trans hslot,
        (hostWrite_at (locate_v hi hlt) d s).trans hslot⟩,
      fun hi => (hostWrite_at (locate_ks hi hlt) d s).trans hslot,
      fun hi => (hostWrite_at (locate_t hi hlt) d s).trans hslot⟩
  case digest =>
    intro j size hj haligned
    exact hostWrite_at (locate_digest size hj haligned) d s

/-- Settles O23, slot by slot. -/
theorem wordSlotReads : Obligations.WordSlotReads := by
  intro s h hidle hh half
  have hlt : h < 2 := HalfStored.lt_two hh
  refine ⟨fun i => ⟨?cv, ?iv, ?blk, ?v⟩, fun i => ?ks, fun i => ?t⟩
  case cv => exact hostRead_slot (locate_cv i.isLt hlt) hidle hh fun _ => rfl
  case iv => exact hostRead_slot (locate_iv i.isLt hlt) hidle hh fun _ => rfl
  case blk => exact hostRead_slot (locate_blk i.isLt hlt) hidle hh fun _ => rfl
  case v => exact hostRead_slot (locate_v i.isLt hlt) hidle hh fun _ => rfl
  case ks => exact hostRead_slot (locate_ks i.isLt hlt) hidle hh fun _ => rfl
  case t => exact hostRead_slot (locate_t i.isLt hlt) hidle hh fun _ => rfl

/-- While idle a write to the low half of `CV[i]` keeps the high half. -/
theorem hostWrite_cv_low {s : State} (idle : s.status.busy = false) (i : Fin 8) (lo : Word32) :
    hostWrite (0x040 + 8 * i) .word lo s = { s with cv := s.cv.set i (s.cv[i].extractLsb' 32 32 ++ lo) } :=
  hostWrite_of_idle (locate_cv (h := 0) i.isLt (by decide)) rfl idle

theorem hostWrite_blk_low {s : State} (idle : s.status.busy = false) (i : Fin 8) (lo : Word32) :
    hostWrite (0x0C0 + 8 * i) .word lo s
      = { s with blk := s.blk.set i (s.blk[i].extractLsb' 32 32 ++ lo) } :=
  hostWrite_of_idle (locate_blk (h := 0) i.isLt (by decide)) rfl idle

/-- Writing the high half of word `i` of a vector of SK512 keeps the low half. -/
theorem setWordHalf_high_sk512 {p : Profile} (h : p = .sk512) (w : Word) (d : Word32) :
    setWordHalf p true w d = d ++ w.extractLsb' 0 32 := by
  subst h
  rfl

/-- While idle, in SK512, a write to the high half of `CV[i]` keeps the low half. -/
theorem hostWrite_cv_high {s : State} (idle : s.status.busy = false) (hp : s.inst.profile = .sk512)
    (i : Fin 8) (hi : Word32) :
    hostWrite (0x044 + 8 * i) .word hi s = { s with cv := s.cv.set i (hi ++ s.cv[i].extractLsb' 0 32) } := by
  rw [← setWordHalf_high_sk512 hp, show 0x044 + 8 * (i : Nat) = 0x040 + 8 * i + 4 * 1 by omega]
  exact hostWrite_of_idle (locate_cv i.isLt (by decide)) rfl idle

theorem hostWrite_blk_high {s : State} (idle : s.status.busy = false) (hp : s.inst.profile = .sk512)
    (i : Fin 8) (hi : Word32) :
    hostWrite (0x0C4 + 8 * i) .word hi s
      = { s with blk := s.blk.set i (hi ++ s.blk[i].extractLsb' 0 32) } := by
  rw [← setWordHalf_high_sk512 hp, show 0x0C4 + 8 * (i : Nat) = 0x0C0 + 8 * i + 4 * 1 by omega]
  exact hostWrite_of_idle (locate_blk i.isLt (by decide)) rfl idle

/-- The low half of a word just written, under a new high half, is the whole word. -/
theorem set_low_then_high (v : Vec8) (i : Fin 8) (old lo hi : Word32) :
    (v.set i (old ++ lo)).set i (hi ++ (v.set i (old ++ lo))[i].extractLsb' 0 32) = v.set i (hi ++ lo) := by
  simp [low_half]

/-- Settles O24: each half keeps the other, so the two writes give the whole word. -/
theorem wordSlotWrites : Obligations.WordSlotWrites := by
  intro s i lo hi hidle
  refine ⟨hostWrite_cv_low hidle i lo, hostWrite_blk_low hidle i lo, fun hp =>
    ⟨hostWrite_cv_high hidle hp i hi, hostWrite_blk_high hidle hp i hi, ?cv, ?blk⟩⟩
  case cv =>
    have hlow := hostWrite_cv_low hidle i lo
    rw [hostWrite_cv_high (by rw [hlow]; exact hidle) (by rw [hlow]; exact hp), hlow, set_low_then_high]
  case blk =>
    have hlow := hostWrite_blk_low hidle i lo
    rw [hostWrite_blk_high (by rw [hlow]; exact hidle) (by rw [hlow]; exact hp), hlow, set_low_then_high]

/-! ## The buffers (R51, R54) -/

/-- A write changes only the bytes of MSG it covers, of all of memory. -/
theorem bufByte_outside_writeRange (s : State) {j off : Nat} (bs : List Byte)
    (h : off < 0x1000 + j ∨ 0x1000 + j + bs.length ≤ off) :
    ({ s with msg := s.msg.writeRange j bs } : State).bufByte off = s.bufByte off := by
  obtain hlow | hmsg := Nat.lt_or_ge off 0x1000
  · have hout : ¬ (msgBase ≤ off ∧ off < msgBase + s.inst.msgMax) := by unfold msgBase; omega
    simp only [State.bufByte, if_neg hout]
  · obtain ⟨x, rfl⟩ := Nat.exists_eq_add_of_le hmsg
    rw [bufByte_msg, bufByte_msg, Memory.read_writeRange_outside _ _ _ _ (by omega)]

/-- An aligned access that begins in MSG ends in it, since MSG_MAX is a multiple of 64 (R7). -/
theorem aligned_access_in_msg {c : Instance} (hwf : c.wf) {j k : Nat} {size : Size} (hj : j < c.msgMax)
    (haligned : j % size.bytes = 0) (hk : k < size.bytes) : j + k < c.msgMax := by
  obtain ⟨-, hmul, -⟩ := hwf
  obtain h | h | h := size.bytes_cases <;> rw [h] at haligned hk <;> omega

/-- Settles O26: the bytes of the data are written from `j` up and MSG alone changes. -/
theorem msgWriteIsLittleEndian : Obligations.MsgWriteIsLittleEndian := by
  intro s j size d hidle hwf hj haligned t
  have ht : t = { s with msg := s.msg.writeRange j ((List.range size.bytes).map (busByte d)) } :=
    hostWrite_of_idle (locate_msg size haligned) rfl hidle
  refine ⟨by rw [ht], ?inside, ?outside⟩
  case inside =>
    intro k hk
    have hlen : k < ((List.range size.bytes).map (busByte d)).length := by simpa using hk
    rw [ht, Nat.add_assoc, bufByte_msg, if_pos (aligned_access_in_msg hwf hj haligned hk),
      Memory.read_writeRange_inside _ _ _ _ hlen, List.getElem?_eq_getElem hlen]
    simp [busByte_eq]
  case outside =>
    intro off hoff
    rw [ht]
    exact bufByte_outside_writeRange s _ (by simpa using hoff)

/-- A read of written bytes does not see the free value. -/
theorem readBuffer_written {m : Memory} {j n : Nat} {b : Nat → Byte}
    (h : ∀ k, k < n → m.read (j + k) = some (b k)) (free : Word32) :
    readBuffer m j n free = busWord ((List.range n).map b) := by
  unfold readBuffer
  congr 1
  apply List.map_congr_left
  intro k hk
  rw [h k (List.mem_range.1 hk), Option.getD_some]

/-- At most 4 bytes on the bus are their number. -/
theorem busWord_toNat {bs : List Byte} (h : bs.length ≤ 4) : (busWord bs).toNat = leNat bs := by
  rw [busWord, BitVec.toNat_ofNat, Nat.mod_eq_of_lt]
  exact lt_of_lt_of_le (leNat_lt bs) (Nat.pow_le_pow_right (by omega) (by omega))

/-- The number of the bytes `b 0`, …, `b (n-1)`. -/
theorem leNat_map_range (b : Nat → Byte) (n : Nat) :
    leNat ((List.range n).map b) = ((List.range n).map fun k => (b k).toNat * 2 ^ (8 * k)).sum := by
  rw [leNat_eq_sum, List.length_map, List.length_range]
  congr 1
  apply List.map_congr_left
  intro k hk
  simp [List.getD_eq_getElem?_getD, List.mem_range.1 hk]

/-- The bus word of a read of written bytes is their number (R51). -/
theorem readBuffer_written_toNat {m : Memory} {j : Nat} {size : Size} {b : Nat → Byte}
    (h : ∀ k, k < size.bytes → m.read (j + k) = some (b k)) (free : Word32) :
    (readBuffer m j size.bytes free).toNat
      = ((List.range size.bytes).map fun k => (b k).toNat * 2 ^ (8 * k)).sum := by
  have hlen : ((List.range size.bytes).map b).length ≤ 4 := by
    cases size <;> simp [Size.bytes]
  rw [readBuffer_written h, busWord_toNat hlen, leNat_map_range]

/-- Settles O27: a read of MSG, or of DIGEST while idle, returns what the buffer holds. -/
theorem bufferReadIsLittleEndian : Obligations.BufferReadIsLittleEndian := by
  intro s j size b haligned number
  constructor
  · intro hwritten
    exact ⟨_, hostRead_stored (locate_msg size haligned) (.inr rfl), readBuffer_written_toNat hwritten _⟩
  · intro hidle hj hwritten
    exact ⟨_, hostRead_stored (locate_digest size hj haligned) (.inl hidle), readBuffer_written_toNat hwritten _⟩

end Sys2Proof.Machine
end

section
/-! What a command can see of MSG: only the bytes below LEN (O59). -/

namespace Sys2Proof.Machine

open Sys2Proof

/-! ## Other contents of MSG -/

/-- The state with the contents `m` of MSG. -/
def State.withMsg (m : Memory) (s : State) : State := { s with msg := m }

@[simp] theorem withMsg_inst (m : Memory) (s : State) : (s.withMsg m).inst = s.inst := rfl
@[simp] theorem withMsg_len (m : Memory) (s : State) : (s.withMsg m).len = s.len := rfl
@[simp] theorem withMsg_status (m : Memory) (s : State) : (s.withMsg m).status = s.status := rfl
@[simp] theorem withMsg_msg (m : Memory) (s : State) : (s.withMsg m).msg = m := rfl

/-- The same way to end, the next state with the contents `m` of MSG. -/
def resultWithMsg (m : Memory) : Result → Result
  | .next t => .next (t.withMsg m)
  | .fault f => .fault f
  | .refused r => .refused r

@[simp] theorem finish_withMsg (m : Memory) (u : State) :
    finish (u.withMsg m) = resultWithMsg m (finish u) := rfl

@[simp] theorem raise_withMsg (m : Memory) (e : ErrCode) (s : State) :
    raise e (s.withMsg m) = resultWithMsg m (raise e s) := rfl

/-! ## The phases of a command do not read MSG -/

theorem ubiBlocks_withMsg (m : Memory) (type : BitVec 6) (d : List Byte) (N : Nat) (s : State) (k : Nat) :
    ubiBlocks type d N (s.withMsg m) k = (ubiBlocks type d N s k).withMsg m := by
  induction k with
  | zero => rfl
  | succ k ih =>
    rw [ubiBlocks_succ, ubiBlocks_succ, ih]
    rfl

@[simp] theorem ubi_withMsg (m : Memory) (type : BitVec 6) (d : List Byte) (s : State) :
    ubi type d (s.withMsg m) = (ubi type d s).withMsg m :=
  ubiBlocks_withMsg m type d _ s _

@[simp] theorem configPhase_withMsg (m : Memory) (s : State) :
    configPhase (s.withMsg m) = (configPhase s).withMsg m :=
  ubi_withMsg m tagCfg _ s

@[simp] theorem outputPhase_withMsg (m : Memory) (s : State) :
    outputPhase (s.withMsg m) = (outputPhase s).withMsg m :=
  ubi_withMsg m tagOut _ s

/-! ## A command reads MSG below LEN alone (R58, R111) -/

/-- `m` agrees with MSG in every byte below LEN. -/
abbrev AgreesBelowLen (m : Memory) (s : State) : Prop := ∀ j, j < s.len.toNat → m.read j = s.msg.read j

/-- A range reads the same from two buffers that agree on it. -/
theorem Memory.readRange_congr (m m' : Memory) (n : Nat) : ∀ a,
    (∀ k, k < n → m.read (a + k) = m'.read (a + k)) → m.readRange a n = m'.readRange a n := by
  induction n with
  | zero => intros; rfl
  | succ n ih =>
    intro a h
    have hhead : m.read a = m'.read a := h 0 (Nat.succ_pos n)
    have htail : m.readRange (a + 1) n = m'.readRange (a + 1) n := by
      refine ih _ fun k hk => ?_
      rw [Nat.add_assoc, Nat.add_comm 1 k]
      exact h (k + 1) (by omega)
    rw [Memory.readRange, Memory.readRange, hhead, htail]

/-- The input check reads LEN and MSG_MAX (R105). -/
@[simp] theorem inputError_withMsg (m : Memory) (s : State) : inputError (s.withMsg m) = inputError s := rfl

theorem messageData_withMsg {m : Memory} {s : State} (h : AgreesBelowLen m s) :
    messageData (s.withMsg m) = messageData s := by
  simp only [messageData, withMsg_len, withMsg_msg]
  exact Memory.readRange_congr _ _ _ _ fun k hk => h _ (by omega)

theorem messageBlock_withMsg {m : Memory} {s : State} (h : AgreesBelowLen m s) (k : Nat) :
    messageBlock (s.withMsg m) k = messageBlock s k := by
  simp only [messageBlock, withMsg_inst, withMsg_len, withMsg_msg]
  exact Memory.readRange_congr _ _ _ _ fun b hb => h _ (by omega)

/-- A command on the whole message, whose effect `f` does not read MSG besides. -/
theorem withMessage_withMsg {m : Memory} {s : State} (h : AgreesBelowLen m s) {f f' : List Byte → State}
    (hf : ∀ d, f' d = (f d).withMsg m) :
    withMessage (s.withMsg m) f' = resultWithMsg m (withMessage s f) := by
  unfold withMessage
  rw [inputError_withMsg, messageData_withMsg h]
  cases inputError s with
  | some e => rfl
  | none =>
    cases messageData s with
    | none => rfl
    | some d => simp only [hf, finish_withMsg]

theorem execLoadblk_withMsg {m : Memory} {s : State} (h : AgreesBelowLen m s) (k : BitVec 8) :
    execLoadblk k (s.withMsg m) = resultWithMsg m (execLoadblk k s) := by
  simp only [execLoadblk, inputError_withMsg, withMsg_inst, withMsg_len, messageBlock_withMsg h]
  cases inputError s with
  | some e => rfl
  | none =>
    by_cases hk : nblocks s.inst s.len.toNat ≤ k.toNat
    · simp only [if_pos hk, raise_withMsg]
    · simp only [if_neg hk]
      cases messageBlock s k.toNat <;> rfl

/-- Every command ends in the same way with either contents: the four that read MSG read it below LEN, INIT and
LOADIV ask for IVV besides, and the others have an effect on the registers and DIGEST alone. -/
theorem exec_withMsg {m : Memory} {s : State} (h : AgreesBelowLen m s) (i : Instr) :
    exec i (s.withMsg m) = resultWithMsg m (exec i s) := by
  have hivv : (s.withMsg m).status.ivv = s.status.ivv := rfl
  cases i with
  | init =>
    have hphase : configPhase { s.withMsg m with cv := Vec8.zero }
        = (configPhase { s with cv := Vec8.zero }).withMsg m := configPhase_withMsg m { s with cv := Vec8.zero }
    simp only [exec, execInit, hivv, hphase]
    split <;> rfl
  | hash =>
    simp only [exec, execHash, hivv]
    split
    · refine withMessage_withMsg h fun d => ?_
      have hubi : ubi tagMsg d { s.withMsg m with cv := (s.withMsg m).iv }
          = (ubi tagMsg d { s with cv := s.iv }).withMsg m := ubi_withMsg m tagMsg d { s with cv := s.iv }
      rw [hubi, outputPhase_withMsg]
      rfl
    · rfl
  | loadiv =>
    simp only [exec, execLoadiv, hivv]
    split <;> rfl
  | ubi type => exact withMessage_withMsg h fun d => ubi_withMsg m type d s
  | gfold => exact withMessage_withMsg h fun _ => rfl
  | loadblk k => exact execLoadblk_withMsg h k
  | config => exact congrArg finish (configPhase_withMsg m s)
  | output => exact congrArg finish (outputPhase_withMsg m s)
  | nop | clearcv | format | ksched | tweak _ _ _ | vload | inject _ | round _ | encrypt | feedfwd
  | block _ _ _ => rfl

/-- Settles O59. -/
theorem bytesBeyondLenHaveNoEffect : Obligations.BytesBeyondLenHaveNoEffect := by
  intro i s m h
  refine (exec_withMsg h i).trans ?_
  cases exec i s <;> rfl

end Sys2Proof.Machine
end

section
/-! The command word (30_encoding.md): the decoder answers a command exactly when the word is that command's and the
command is legal (O1, O2), the legal words as mask and match rows (O3), the spec's examples (O4), and BLOCK as its
pseudo-instruction (O40). -/

namespace Sys2Proof

/-! ## The fields of an assembled word (R70, R79) -/

/-- A word is the assembly of given fields exactly if it has them, with 0 in the reserved fields. -/
theorem assemble_eq_iff (op : BitVec 8) (type : BitVec 6) (arg : BitVec 8) (first final : Bool) (w : Word32) :
    assemble op type arg first final = w ↔
    fieldOp w = op ∧ fieldType w = type ∧ fieldRsv0 w = 0#2 ∧ fieldArg w = arg ∧
      fieldFirst w = first ∧ fieldFinal w = final ∧ fieldRsv1 w = 0#6 := by
  constructor
  · rintro rfl
    exact assemble_fields op type arg first final
  · rintro ⟨rfl, rfl, h0, rfl, rfl, rfl, h1⟩
    exact assemble_of_fields w h0 h1

/-! ## The word of a command decodes to it (R78) -/

theorem decodeNone_assemble (op : BitVec 8) (i : Instr) :
    decodeNone (assemble op 0#6 0#8 false false) i = .ok i := by
  simp [decodeNone, assemble_fields]

theorem decodeType_assemble (op : BitVec 8) (type : BitVec 6) (i : BitVec 6 → Instr) :
    decodeType (assemble op type 0#8 false false) i = .ok (i type) := by
  simp [decodeType, assemble_fields]

theorem decodeArg_assemble (op arg : BitVec 8) {limit : Nat} (h : arg.toNat ≤ limit) (i : BitVec 8 → Instr) :
    decodeArg (assemble op 0#6 arg false false) limit i = .ok (i arg) := by
  simp [decodeArg, assemble_fields, h]

theorem decodeFlags_assemble (op : BitVec 8) (type : BitVec 6) (first final : Bool)
    (i : BitVec 6 → Bool → Bool → Instr) :
    decodeFlags (assemble op type 0#8 first final) i = .ok (i type first final) := by
  simp [decodeFlags, assemble_fields]

theorem decode_encode {plugin : Bool} {i : Instr} (h : i.wf plugin = true) :
    decode plugin (encode i) = .ok i := by
  cases i with
  | ubi type => simp [encode, Instr.opcode, decode, assemble_fields, decodeType_assemble]
  | loadblk k => simp [encode, Instr.opcode, decode, assemble_fields, decodeArg_assemble _ _ (Nat.le_of_lt_succ k.isLt)]
  | inject s => simp [encode, Instr.opcode, decode, assemble_fields, decodeArg_assemble _ _ (of_decide_eq_true h)]
  | round d => simp [encode, Instr.opcode, decode, assemble_fields, decodeArg_assemble _ _ (of_decide_eq_true h)]
  | tweak type first final | block type first final =>
    simp [encode, Instr.opcode, decode, assemble_fields, decodeFlags_assemble]
  | gfold =>
    have hp : plugin = true := h
    simp [encode, Instr.opcode, decode, assemble_fields, decodeNone_assemble, hp]
  | nop | init | hash | loadiv | clearcv | config | output | format | ksched | vload | encrypt | feedfwd =>
    simp [encode, Instr.opcode, decode, assemble_fields, decodeNone_assemble]

/-- Settles O1. -/
theorem encodeThenDecode : Obligations.EncodeThenDecode := fun _ _ => decode_encode

/-! ## A word that decodes is the word of its command -/

section

variable {w : Word32} {i : Instr} {op : BitVec 8}
  (h0 : fieldRsv0 w = 0) (h1 : fieldRsv1 w = 0) (hop : fieldOp w = op)

include h0 h1 hop

theorem decodeNone_eq_ok {j : Instr} (h : decodeNone w j = .ok i) :
    j = i ∧ assemble op 0 0 false false = w := by
  unfold decodeNone at h
  split at h
  next hz =>
    obtain ⟨ht, ha, hf, hl⟩ := hz
    exact ⟨Except.ok.inj h, (assemble_eq_iff _ _ _ _ _ _).2 ⟨hop, ht, h0, ha, hf, hl, h1⟩⟩
  next => cases h

theorem decodeType_eq_ok {j : BitVec 6 → Instr} (h : decodeType w j = .ok i) :
    ∃ type, j type = i ∧ assemble op type 0 false false = w := by
  unfold decodeType at h
  split at h
  next hz =>
    obtain ⟨ha, hf, hl⟩ := hz
    exact ⟨_, Except.ok.inj h, (assemble_eq_iff _ _ _ _ _ _).2 ⟨hop, rfl, h0, ha, hf, hl, h1⟩⟩
  next => cases h

theorem decodeArg_eq_ok {limit : Nat} {j : BitVec 8 → Instr} (h : decodeArg w limit j = .ok i) :
    ∃ arg, j arg = i ∧ assemble op 0 arg false false = w ∧ arg.toNat ≤ limit := by
  unfold decodeArg at h
  split at h
  next hz =>
    obtain ⟨ht, hf, hl⟩ := hz
    split at h
    next hle =>
      exact ⟨_, Except.ok.inj h, (assemble_eq_iff _ _ _ _ _ _).2 ⟨hop, ht, h0, rfl, hf, hl, h1⟩, hle⟩
    next => cases h
  next => cases h

theorem decodeFlags_eq_ok {j : BitVec 6 → Bool → Bool → Instr} (h : decodeFlags w j = .ok i) :
    ∃ type first final, j type first final = i ∧ assemble op type 0 first final = w := by
  unfold decodeFlags at h
  split at h
  next ha =>
    exact ⟨_, _, _, Except.ok.inj h, (assemble_eq_iff _ _ _ _ _ _).2 ⟨hop, rfl, h0, ha, rfl, rfl, h1⟩⟩
  next => cases h

end

theorem encode_of_decode {plugin : Bool} {w : Word32} {i : Instr} (h : decode plugin w = .ok i) :
    encode i = w ∧ i.wf plugin = true := by
  unfold decode at h
  split at h
  case isFalse => cases h
  case isTrue hrsv =>
    obtain ⟨h0, h1⟩ := hrsv
    -- One case per row of `decode`: `h_6` is UBI, `h_10` GFOLD, `h_11` LOADBLK, `h_15` and `h_16` INJECT and
    -- ROUND, `h_13` and `h_19` TWEAK and BLOCK, `h_20` the unassigned opcodes; the others list no field.
    split at h
    case h_6 hop =>
      obtain ⟨type, rfl, hw⟩ := decodeType_eq_ok h0 h1 hop h
      exact ⟨hw, rfl⟩
    case h_10 hop =>
      split at h
      next hp =>
        obtain ⟨rfl, hw⟩ := decodeNone_eq_ok h0 h1 hop h
        exact ⟨hw, hp⟩
      next => cases h
    case h_11 hop =>
      obtain ⟨k, rfl, hw, -⟩ := decodeArg_eq_ok h0 h1 hop h
      exact ⟨hw, rfl⟩
    case h_15 hop | h_16 hop =>
      obtain ⟨arg, rfl, hw, hle⟩ := decodeArg_eq_ok h0 h1 hop h
      exact ⟨hw, decide_eq_true hle⟩
    case h_13 hop | h_19 hop =>
      obtain ⟨type, first, final, rfl, hw⟩ := decodeFlags_eq_ok h0 h1 hop h
      exact ⟨hw, rfl⟩
    case h_20 => cases h
    all_goals
      next hop =>
        obtain ⟨rfl, hw⟩ := decodeNone_eq_ok h0 h1 hop h
        exact ⟨hw, rfl⟩

/-- Settles O2. -/
theorem decodeThenEncode : Obligations.DecodeThenEncode := fun _ _ _ => encode_of_decode

/-- A word decodes to a command exactly if it is the command's word and the command is legal (R78). -/
theorem decode_eq_ok_iff {plugin : Bool} {w : Word32} {i : Instr} :
    decode plugin w = .ok i ↔ encode i = w ∧ i.wf plugin = true := by
  constructor
  · exact encode_of_decode
  · rintro ⟨rfl, h⟩
    exact decode_encode h

theorem legalWord_iff {plugin : Bool} {w : Word32} :
    legalWord plugin w = true ↔ ∃ i, encode i = w ∧ i.wf plugin = true := by
  simp only [← decode_eq_ok_iff, legalWord]
  cases decode plugin w <;> simp [Except.isOk, Except.toBool]

/-! ## The mask and match rows (R74)

The mask of a row is the complement of the bits of the fields that the row lists. -/

theorem extractLsb'_and_not {n start len : Nat} (h : start + len ≤ n) (x y : BitVec n) :
    (x &&& ~~~y).extractLsb' start len = x.extractLsb' start len &&& ~~~y.extractLsb' start len := by
  ext k hk
  have hlt : start + k < n := by omega
  simp [hlt]

theorem and_not_zero {n : Nat} (x : BitVec n) : x &&& ~~~0#n = x := by
  rw [BitVec.not_zero, BitVec.and_allOnes]

section

variable (w x : Word32)

theorem fieldOp_and_not : fieldOp (w &&& ~~~x) = fieldOp w &&& ~~~fieldOp x :=
  extractLsb'_and_not (by decide) w x

theorem fieldType_and_not : fieldType (w &&& ~~~x) = fieldType w &&& ~~~fieldType x :=
  extractLsb'_and_not (by decide) w x

theorem fieldRsv0_and_not : fieldRsv0 (w &&& ~~~x) = fieldRsv0 w &&& ~~~fieldRsv0 x :=
  extractLsb'_and_not (by decide) w x

theorem fieldArg_and_not : fieldArg (w &&& ~~~x) = fieldArg w &&& ~~~fieldArg x :=
  extractLsb'_and_not (by decide) w x

theorem fieldFirst_and_not : fieldFirst (w &&& ~~~x) = (fieldFirst w && !fieldFirst x) := by
  simp [fieldFirst]

theorem fieldFinal_and_not : fieldFinal (w &&& ~~~x) = (fieldFinal w && !fieldFinal x) := by
  simp [fieldFinal]

theorem fieldRsv1_and_not : fieldRsv1 (w &&& ~~~x) = fieldRsv1 w &&& ~~~fieldRsv1 x :=
  extractLsb'_and_not (by decide) w x

end

/-- Masking bits of TYPE, ARG, FIRST and FINAL out of a word leaves a bare opcode exactly if all its other bits
are that opcode's. -/
theorem and_not_assemble_eq_iff (op : BitVec 8) (type : BitVec 6) (arg : BitVec 8) (first final : Bool)
    (w : Word32) : w &&& ~~~assemble 0#8 type arg first final = assemble op 0#6 0#8 false false ↔
      fieldOp w = op ∧ fieldType w &&& ~~~type = 0#6 ∧ fieldRsv0 w = 0#2 ∧ fieldArg w &&& ~~~arg = 0#8 ∧
        (fieldFirst w && !first) = false ∧ (fieldFinal w && !final) = false ∧ fieldRsv1 w = 0#6 := by
  rw [eq_comm, assemble_eq_iff, fieldOp_and_not, fieldType_and_not, fieldRsv0_and_not, fieldArg_and_not,
    fieldFirst_and_not, fieldFinal_and_not, fieldRsv1_and_not]
  simp only [assemble_fields, and_not_zero, -BitVec.reduceNot, BitVec.ofNat_eq_ofNat]

/-- The row of an opcode that lists TYPE. -/
theorem and_typeMask_eq_iff (op : BitVec 8) (w : Word32) :
    w &&& 0xFFFFC0FF#32 = assemble op 0#6 0#8 false false ↔ ∃ type, assemble op type 0#8 false false = w := by
  have hmask : 0xFFFFC0FF#32 = ~~~assemble 0#8 (BitVec.allOnes 6) 0#8 false false := by decide
  rw [hmask, and_not_assemble_eq_iff, and_not_zero, BitVec.not_allOnes]
  simp [assemble_eq_iff]

/-- The row of an opcode that lists ARG. -/
theorem and_argMask_eq_iff (op : BitVec 8) (w : Word32) :
    w &&& 0xFF00FFFF#32 = assemble op 0#6 0#8 false false ↔ assemble op 0#6 (fieldArg w) false false = w := by
  have hmask : 0xFF00FFFF#32 = ~~~assemble 0#8 0#6 (BitVec.allOnes 8) false false := by decide
  rw [hmask, and_not_assemble_eq_iff, and_not_zero, BitVec.not_allOnes]
  simp [assemble_eq_iff]

/-- The row of an opcode that lists TYPE, FIRST and FINAL. -/
theorem and_flagsMask_eq_iff (op : BitVec 8) (w : Word32) :
    w &&& 0xFCFFC0FF#32 = assemble op 0#6 0#8 false false ↔
      ∃ type first final, assemble op type 0#8 first final = w := by
  have hmask : 0xFCFFC0FF#32 = ~~~assemble 0#8 (BitVec.allOnes 6) 0#8 true true := by decide
  rw [hmask, and_not_assemble_eq_iff, and_not_zero, BitVec.not_allOnes]
  simp [assemble_eq_iff]

/-- The value that R75 limits is ARG. -/
theorem fieldArg_toNat (w : Word32) : (fieldArg w).toNat = w.toNat / 2 ^ 16 % 2 ^ 8 := by
  rw [fieldArg, BitVec.extractLsb'_toNat, Nat.shiftRight_eq_div_pow]

/-! ## The legal words -/

/-- The commands without operands that need no plug-in (R73, R76). -/
def fixedCommands : List Instr :=
  [.nop, .init, .hash, .loadiv, .clearcv, .config, .output, .format, .ksched, .vload, .encrypt, .feedfwd]

theorem wf_of_mem_fixedCommands (plugin : Bool) : ∀ i ∈ fixedCommands, i.wf plugin = true := by
  cases plugin <;> decide

theorem fixedWords_eq_map_encode :
    [0x00#32, 0x01#32, 0x02#32, 0x03#32, 0x04#32, 0x06#32, 0x07#32, 0x08#32, 0x11#32, 0x13#32, 0x16#32, 0x17#32]
      = fixedCommands.map encode := by decide

theorem and_mask_eq_ubi {w : Word32} :
    w &&& 0xFFFFC0FF#32 = 0x05#32 ↔ ∃ type, encode (.ubi type) = w :=
  and_typeMask_eq_iff 0x05 w

theorem and_mask_eq_loadblk {w : Word32} :
    w &&& 0xFF00FFFF#32 = 0x10#32 ↔ encode (.loadblk (fieldArg w)) = w :=
  and_argMask_eq_iff 0x10 w

theorem and_mask_eq_inject {w : Word32} :
    w &&& 0xFF00FFFF#32 = 0x14#32 ↔ encode (.inject (fieldArg w)) = w :=
  and_argMask_eq_iff 0x14 w

theorem and_mask_eq_round {w : Word32} :
    w &&& 0xFF00FFFF#32 = 0x15#32 ↔ encode (.round (fieldArg w)) = w :=
  and_argMask_eq_iff 0x15 w

theorem and_mask_eq_tweak {w : Word32} :
    w &&& 0xFCFFC0FF#32 = 0x12#32 ↔ ∃ type first final, encode (.tweak type first final) = w :=
  and_flagsMask_eq_iff 0x12 w

theorem and_mask_eq_block {w : Word32} :
    w &&& 0xFCFFC0FF#32 = 0x18#32 ↔ ∃ type first final, encode (.block type first final) = w :=
  and_flagsMask_eq_iff 0x18 w

theorem encode_gfold : encode .gfold = 0x09#32 := by decide

/-- Settles O3: each disjunct of the table is one kind of legal command. -/
theorem legalWordsAreTheMaskMatchRows : Obligations.LegalWordsAreTheMaskMatchRows := by
  intro plugin w
  rw [legalWord_iff, fixedWords_eq_map_encode, List.mem_map, and_mask_eq_ubi, and_mask_eq_loadblk,
    and_mask_eq_inject, and_mask_eq_round, and_mask_eq_tweak, and_mask_eq_block, ← fieldArg_toNat]
  constructor
  · rintro ⟨i, rfl, hwf⟩
    cases i with
    | gfold => exact .inr (.inl ⟨hwf, encode_gfold⟩)
    | ubi type => exact .inr (.inr (.inl ⟨type, rfl⟩))
    | loadblk k => exact .inr (.inr (.inr (.inl (by simp [encode, assemble_fields]))))
    | inject s =>
      have hs : s.toNat ≤ 18 := of_decide_eq_true hwf
      exact .inr (.inr (.inr (.inr (.inl (by simpa [encode, assemble_fields] using hs)))))
    | round d =>
      have hd : d.toNat ≤ 71 := of_decide_eq_true hwf
      exact .inr (.inr (.inr (.inr (.inr (.inl (by simpa [encode, assemble_fields] using hd))))))
    | tweak type first final =>
      exact .inr (.inr (.inr (.inr (.inr (.inr (.inl ⟨type, first, final, rfl⟩))))))
    | block type first final =>
      exact .inr (.inr (.inr (.inr (.inr (.inr (.inr ⟨type, first, final, rfl⟩))))))
    | nop | init | hash | loadiv | clearcv | config | output | format | ksched | vload | encrypt | feedfwd =>
      exact .inl ⟨_, by decide, rfl⟩
  · rintro (⟨i, hi, hw⟩ | ⟨hp, hw⟩ | ⟨type, hw⟩ | hw | ⟨hw, hs⟩ | ⟨hw, hd⟩ |
      ⟨type, first, final, hw⟩ | ⟨type, first, final, hw⟩)
    · exact ⟨i, hw, wf_of_mem_fixedCommands plugin i hi⟩
    · exact ⟨.gfold, hw.symm ▸ encode_gfold, hp⟩
    · exact ⟨_, hw, rfl⟩
    · exact ⟨_, hw, rfl⟩
    · exact ⟨_, hw, decide_eq_true hs⟩
    · exact ⟨_, hw, decide_eq_true hd⟩
    · exact ⟨_, hw, rfl⟩
    · exact ⟨_, hw, rfl⟩

/-- Settles O4: the words of R83 are closed, so the decoder computes the answers. -/
theorem encodingExamplesDecode : Obligations.EncodingExamplesDecode := by
  unfold Obligations.EncodingExamplesDecode
  decide

end Sys2Proof

namespace Sys2Proof.Machine

/-- Settles O40: each of the four commands reads what the ones before it wrote, and completing four times without
an error is completing once. -/
theorem blockEqualsStepBlock : Obligations.BlockEqualsStepBlock :=
  fun _ _ _ _ => ⟨_, rfl, rfl⟩

end Sys2Proof.Machine
end

section
/-! The words of 40_word_arith.md in numbers: the sum and the rotation (O28), and packing bytes into a word (O29). -/

namespace Sys2Proof.Machine

open Sys2Proof

/-! ## Sum and rotation -/

/-- R93 for words of any width: the bits that the shift to the left drops are the ones the shift to the right
brings back, and these are below `2^w` as they stand. -/
theorem toNat_rotateLeft_of_lt {w r : Nat} (x : BitVec w) (hr : r < w) :
    (x.rotateLeft r).toNat = (x.toNat * 2 ^ r ||| x.toNat / 2 ^ (w - r)) % 2 ^ w := by
  have hlow : x.toNat / 2 ^ (w - r) < 2 ^ w := (Nat.div_le_self _ _).trans_lt x.isLt
  rw [BitVec.toNat_rotateLeft, Nat.mod_eq_of_lt hr, Nat.shiftLeft_eq, Nat.shiftRight_eq_div_pow,
    Nat.or_mod_two_pow, Nat.mod_eq_of_lt hlow]

theorem rotlW_toNat {p : Profile} {x : Word} {r : Nat} (hr : r < p.width) (hx : FitsWord p x) :
    (rotlW p x r).toNat = (x.toNat * 2 ^ r ||| x.toNat / 2 ^ (p.width - r)) % 2 ^ p.width := by
  cases p with
  | sk512 => exact toNat_rotateLeft_of_lt x hr
  | sk256 =>
    have hx32 : (x.setWidth 32).toNat = x.toNat := by
      rw [BitVec.toNat_setWidth]; exact Nat.mod_eq_of_lt hx
    have hrot := toNat_rotateLeft_of_lt (x.setWidth 32) hr
    rw [hx32] at hrot
    rw [rotlW, BitVec.toNat_setWidth_of_le (by decide)]
    exact hrot

/-- A 64-bit word is its high half times `2^32` and its low half. -/
theorem toNat_append_halves (h l : Word32) : (h ++ l).toNat = h.toNat * 2 ^ 32 + l.toNat := by
  rw [BitVec.toNat_append, ← Nat.shiftLeft_add_eq_or_of_lt l.isLt, Nat.shiftLeft_eq]

/-- R95: the carry of the low halves goes into the sum of the high ones. -/
theorem addW_append_halves (xh xl yh yl : Word32) :
    addW .sk512 (xh ++ xl) (yh ++ yl)
      = (xh + yh + BitVec.ofNat 32 ((xl.toNat + yl.toNat) / 2 ^ 32)) ++ (xl + yl) := by
  apply BitVec.eq_of_toNat_eq
  rw [addW_toNat, toNat_append_halves, toNat_append_halves, toNat_append_halves]
  simp only [BitVec.toNat_add, BitVec.toNat_ofNat, Profile.width]
  omega

/-- Settles O28. -/
theorem addAndRotateInNumbers : Obligations.AddAndRotateInNumbers :=
  ⟨addW_toNat, fun _ _ _ => rotlW_toNat, addW_append_halves⟩

/-! ## Bytes and words -/

theorem wordBytes_le (p : Profile) : p.wordBytes ≤ 8 := by cases p <;> decide

/-- Unpacking loses nothing of a `W`-bit word. -/
theorem leWord_leBytes {p : Profile} {w : Word} (hw : FitsWord p w) : leWord (leBytes p w) = w := by
  have hnum : leNat (leBytes p w) = w.toNat := by
    rw [leBytes, leNat_of_bytes _ w.toNat _ fun k _ => byteOf_toNat w k, ← width_eq, Nat.mod_eq_of_lt hw]
  rw [leWord, hnum, BitVec.ofNat_toNat, BitVec.setWidth_eq]

theorem byteOf_leWord {bs : List Byte} (h : bs.length ≤ 8) (k : Nat) : byteOf (leWord bs) k = bs.getD k 0 := by
  apply BitVec.eq_of_toNat_eq
  rw [byteOf_toNat, leWord_toNat h, leNat_byte]

/-- Packing loses nothing of `W/8` bytes: byte `k` of the word is byte `k` of the string. -/
theorem leBytes_leWord {p : Profile} {bs : List Byte} (h : bs.length = p.wordBytes) :
    leBytes p (leWord bs) = bs := by
  apply List.ext_getElem
  · rw [leBytes, List.length_map, List.length_range, h]
  · intro k _ hk
    have hlen : bs.length ≤ 8 := h.trans_le (wordBytes_le p)
    simp only [leBytes, List.getElem_map, List.getElem_range, byteOf_leWord hlen, List.getD_eq_getElem _ _ hk]

/-- Settles O29. -/
theorem bytesAndWordsAreInverse : Obligations.BytesAndWordsAreInverse :=
  ⟨fun _ _ => leWord_leBytes, fun _ _ => leBytes_leWord,
    fun bs h => (leWord_toNat h).trans (leNat_eq_sum bs)⟩

end Sys2Proof.Machine
end

section
/-! The block engine of 41_engine.md: NOP (O30), the block count (O31), LOADBLK (O32) and the UBI call as a loop of
LOADBLK and BLOCK (O43). -/

namespace Sys2Proof.Machine

open Sys2Proof

/-! ## NOP (R126) -/

theorem encode_nop : encode .nop = 0 := by decide

/-- Settles O30: NOP only completes, and a word decodes to NOP exactly if it is NOP's word. -/
theorem nopOnlyCompletes : Obligations.NopOnlyCompletes := by
  refine ⟨fun _ => rfl, fun plugin w => ?_⟩
  rw [decode_eq_ok_iff, encode_nop]
  exact ⟨fun h => h.1.symm, fun h => ⟨h.symm, rfl⟩⟩

/-! ## The block count (R106) -/

theorem blockBytes_eq (p : Profile) : p.blockBytes = 64 ∨ p.blockBytes = 32 := by cases p <;> decide

@[simp] theorem nblocks_zero (c : Instance) : nblocks c 0 = 1 := by
  rcases blockBytes_eq c.profile with hB | hB <;> simp [nblocks, hB]

/-- Data that is not empty takes its blocks rounded up, and aligned data the extra one. -/
theorem nblocks_of_pos (c : Instance) {L : Nat} (hL : 0 < L) :
    nblocks c L = (L + c.profile.blockBytes - 1) / c.profile.blockBytes
      + if c.alignedExtraBlock = true ∧ L % c.profile.blockBytes = 0 then 1 else 0 := by
  have hone : 1 ≤ (L + c.profile.blockBytes - 1) / c.profile.blockBytes :=
    (Nat.one_le_div_iff (blockBytes_pos _)).2 (by omega)
  simp only [nblocks, max_eq_right hone, hL, true_and]

/-- Settles O31: for data that is not empty the count is a quotient rounded up, by 64 or by 32. -/
theorem blockCountCoversTheData : Obligations.BlockCountCoversTheData := by
  intro c L BB N
  refine ⟨nblocks_pos c L, fun h => (congrArg (nblocks c) h).trans (nblocks_zero c), fun hL hplain => ?plain,
    fun hL hextra haligned => ?extra⟩
  case plain =>
    have hnone : ¬ (c.alignedExtraBlock = true ∧ L % BB = 0) := by
      rintro ⟨hextra, haligned⟩
      exact hplain.elim (by simp [hextra]) (· haligned)
    have hN : N = (L + BB - 1) / BB := (nblocks_of_pos c hL).trans (by rw [if_neg hnone, Nat.add_zero])
    rcases blockBytes_eq c.profile with hB | hB <;> simp only [BB, hB] at hN ⊢ <;> omega
  case extra =>
    have hN : N = (L + BB - 1) / BB + 1 := (nblocks_of_pos c hL).trans (by rw [if_pos ⟨hextra, haligned⟩])
    rcases blockBytes_eq c.profile with hB | hB <;> simp only [BB, hB] at hN haligned ⊢ <;> omega

/-! ## The block loader (R107 to R110) -/

theorem byte_of_slot_lt {p : Profile} (i : Fin 8) {b : Nat} (hb : b < p.wordBytes) :
    i * p.wordBytes + b < p.blockBytes :=
  calc i * p.wordBytes + b < (i + 1) * p.wordBytes := by rw [Nat.add_mul]; omega
    _ ≤ 8 * p.wordBytes := Nat.mul_le_mul_right _ (by omega)

/-- Byte `b` of word `i` of a block is byte `i*(W/8) + b` of its data, 0 beyond the end. -/
theorem byteOf_wordsOf (p : Profile) (d : List Byte) (i : Fin 8) {b : Nat} (hb : b < p.wordBytes) :
    byteOf (wordsOf p d)[i] b = d.getD (i * p.wordBytes + b) 0 := by
  have hlen : ((List.range p.wordBytes).map fun j => d.getD (i * p.wordBytes + j) 0x00).length ≤ 8 := by
    simpa using wordBytes_le p
  simp only [wordsOf, Fin.getElem_fin, Vec8.gen_getElem]
  rw [byteOf_leWord hlen]
  simp [List.getD_eq_getElem?_getD, hb]

/-- A block depends on the first `BB` bytes of its data alone. -/
theorem wordsOf_congr {p : Profile} {d d' : List Byte} (h : ∀ j, j < p.blockBytes → d.getD j 0 = d'.getD j 0) :
    wordsOf p d = wordsOf p d' := by
  refine Vec8.ext fun i => ?_
  simp only [wordsOf, Fin.getElem_fin, Vec8.gen_getElem]
  congr 1
  exact List.map_congr_left fun j hj => h _ (byte_of_slot_lt i (List.mem_range.1 hj))

/-- The bytes of block `k` below LEN, where MSG has the bytes `m`. -/
def blockData (s : State) (k : Nat) (m : Nat → Byte) : List Byte :=
  (List.range (min s.inst.profile.blockBytes (s.len.toNat - k * s.inst.profile.blockBytes))).map
    fun j => m (k * s.inst.profile.blockBytes + j)

theorem blockData_getD (s : State) (k : Nat) (m : Nat → Byte) {j : Nat} (hj : j < s.inst.profile.blockBytes) :
    (blockData s k m).getD j 0 =
      if k * s.inst.profile.blockBytes + j < s.len.toNat then m (k * s.inst.profile.blockBytes + j) else 0 := by
  split
  case isTrue h =>
    simp [blockData, List.getD_eq_getElem?_getD, hj, show j < s.len.toNat - k * s.inst.profile.blockBytes by omega]
  case isFalse h =>
    rw [List.getD_eq_default _ _ (by simp [blockData]; omega)]

/-- A block whose bytes below LEN are written reads as those bytes (R109). -/
theorem messageBlock_of_written {s : State} {k : Nat} {m : Nat → Byte}
    (h : ∀ j, k * s.inst.profile.blockBytes ≤ j → j < (k + 1) * s.inst.profile.blockBytes → j < s.len.toNat →
      s.msg.read j = some (m j)) :
    messageBlock s k = some (blockData s k m) := by
  refine (Memory.readRange_eq_some _ _ _ _).2 ⟨by simp [blockData], fun j hj => ?_⟩
  rw [h _ (by omega) (by rw [Nat.add_mul]; omega) (by omega)]
  simp [blockData, hj]

/-- LOADBLK of a block within the data, its bytes below LEN written (R115). -/
theorem exec_loadblk_of_written {s : State} {k : BitVec 8} {m : Nat → Byte} (hl : s.LenAccepted)
    (hk : k.toNat < nblocks s.inst s.len.toNat)
    (h : ∀ j, k.toNat * s.inst.profile.blockBytes ≤ j → j < (k.toNat + 1) * s.inst.profile.blockBytes →
      j < s.len.toNat → s.msg.read j = some (m j)) :
    exec (.loadblk k) s = .next (complete .none { s with
      blk := wordsOf s.inst.profile (blockData s k.toNat m)
      pos := blockPos s.inst s.len.toNat k.toNat (nblocks s.inst s.len.toNat) }) :=
  (execLoadblk_eq_next k s _).2
    (.inr (.inr ⟨(inputError_eq_none s).2 hl, hk, _, messageBlock_of_written h, rfl⟩))

/-- The position of a block that LOADBLK reaches is a number below `2^64` (R112). -/
theorem blockPos_toNat (c : Instance) {L k : Nat} (N : Nat) (hL : L < 2 ^ 32) (hk : k < 256) :
    (blockPos c L k N).toNat = if k + 1 < N then (k + 1) * c.profile.blockBytes else L := by
  rw [blockPos, BitVec.toNat_ofNat]
  refine Nat.mod_eq_of_lt ?_
  rcases blockBytes_eq c.profile with hB | hB <;> rw [hB] <;> split <;> omega

theorem byteOf_eq_extractLsb' (w : Word) (k : Nat) : byteOf w k = w.extractLsb' (8 * k) 8 := by
  apply BitVec.eq_of_toNat_eq
  rw [byteOf_toNat, BitVec.extractLsb'_toNat, Nat.shiftRight_eq_div_pow]

/-- Settles O32: the block of MSG is read, and its words' bytes are the bytes read, 0 from LEN on. -/
theorem loadblkLoadsThePaddedBlock : Obligations.LoadblkLoadsThePaddedBlock := by
  intro s k m BB wb N hlen hk hwritten
  refine ⟨_, exec_loadblk_of_written hlen hk hwritten, rfl, fun i => ⟨fits_wordsOf _ _ i i.isLt, fun b hb => ?_⟩,
    blockPos_toNat _ _ s.len.isLt k.isLt⟩
  rw [← byteOf_eq_extractLsb', Nat.add_assoc]
  exact (byteOf_wordsOf _ _ i hb).trans (blockData_getD s k.toNat m (byte_of_slot_lt i hb))

/-! ## The UBI call as a loop (R114, R146) -/

/-- A list of commands runs on from where the first part of it ended. -/
theorem execAll_append {is : List Instr} {s t : State} (h : execAll is s = .next t) (js : List Instr) :
    execAll (is ++ js) s = execAll js t := by
  induction is generalizing s with
  | nil => cases h; rfl
  | cons i is ih =>
    rw [List.cons_append, execAll]
    rw [execAll] at h
    cases hi : exec i s with
    | next u => rw [hi] at h; exact ih h
    | fault r => rw [hi] at h; cases h
    | refused r => rw [hi] at h; cases h

theorem EngineKeeps.lenAccepted {s u : State} (h : EngineKeeps s u) (hl : s.LenAccepted) : u.LenAccepted := by
  rwa [State.LenAccepted, h.len, h.inst]

theorem EngineKeeps.message {s u : State} (h : EngineKeeps s u) {d : List Byte} (hd : s.Message d) :
    u.Message d := by
  rwa [State.Message, h.len, h.msg]

/-- Block `k` of the message, as LOADBLK reads it, is block `k` of the zero-padded data (R109, R110). -/
theorem wordsOf_blockData (s : State) {d : List Byte} (hd : d.length = s.len.toNat) (k : Nat) :
    wordsOf s.inst.profile (blockData s k fun j => d.getD j 0) = blockWords s.inst.profile d k := by
  refine wordsOf_congr fun j hj => ?_
  rw [blockData_getD s k _ hj, List.getD_eq_getElem?_getD (l := d.drop _), List.getElem?_drop,
    ← List.getD_eq_getElem?_getD]
  split
  case isTrue => rfl
  case isFalse h => exact (List.getD_eq_default _ _ (by omega)).symm

/-- LOADBLK k and BLOCK are one block step of the UBI call over the message (R115, R140, R145). -/
theorem execAll_loadblk_block {s : State} {d : List Byte} (hl : s.LenAccepted) (hd : s.Message d) {k : Nat}
    (hk : k < nblocks s.inst d.length) (hreach : k < 256) (type : BitVec 6) (first final : Bool) :
    execAll [.loadblk (BitVec.ofNat 8 k), .block type first final] s
      = .next (complete .none (blockStep (blockWords s.inst.profile d k)
          (blockPos s.inst d.length k (nblocks s.inst d.length)) type first final s)) := by
  have hknat : (BitVec.ofNat 8 k).toNat = k := by rw [BitVec.toNat_ofNat]; exact Nat.mod_eq_of_lt hreach
  have hload := exec_loadblk_of_written (k := BitVec.ofNat 8 k) (m := fun j => d.getD j 0) hl
    (by rwa [hknat, ← hd.1]) fun j _ _ hj => hd.2 j hj
  rw [hknat, wordsOf_blockData s hd.1, ← hd.1] at hload
  rw [execAll, hload]
  rfl

/-- The loop up to block `k` leaves what the UBI call leaves after block `k`, completed. -/
theorem execAll_blocks {s : State} {d : List Byte} (hl : s.LenAccepted) (hd : s.Message d)
    (hreach : nblocks s.inst d.length ≤ 256) (type : BitVec 6) (k : Nat) (hk : k < nblocks s.inst d.length) :
    execAll ((List.range (k + 1)).flatMap fun j =>
        [.loadblk (BitVec.ofNat 8 j), .block type (j == 0) (j + 1 == nblocks s.inst d.length)]) s
      = .next (complete .none (ubiBlocks type d (nblocks s.inst d.length) s (k + 1))) := by
  induction k with
  | zero => exact execAll_loadblk_block hl hd hk (by omega) _ _ _
  | succ k ih =>
    have keeps := (ubiBlocks_frame type d (nblocks s.inst d.length) s (k + 1)).keeps.trans
      (complete_keeps .none _)
    rw [List.range_succ, List.flatMap_append, execAll_append (ih (by omega)), List.flatMap_singleton]
    refine (execAll_loadblk_block (keeps.lenAccepted hl) (keeps.message hd) (by rwa [keeps.inst]) (by omega)
      _ _ _).trans ?_
    rw [keeps.inst]
    rfl

/-- Settles O43: the loop over all the blocks ends where the UBI call does. -/
theorem ubiEqualsTheBlockLoop : Obligations.UbiEqualsTheBlockLoop := by
  intro s type d hl hd hreach
  rw [← hd.1] at hreach ⊢
  obtain ⟨k, hk⟩ : ∃ k, nblocks s.inst d.length = k + 1 :=
    Nat.exists_eq_succ_of_ne_zero (nblocks_pos s.inst d.length).ne'
  have hloop := execAll_blocks hl hd hreach type k (by omega)
  rw [← hk] at hloop
  exact ⟨_, withMessage_of_message hl hd _, hloop⟩

end Sys2Proof.Machine
end

section
/-! The formatter (O33) and the plug-in port (O34, O35) of 41_engine.md. -/

namespace Sys2Proof.Machine

open Sys2Proof

/-! ## Hexadecimal characters (R116 to R119) -/

/-- The character of R116 in numbers. -/
def hexDigit (n : Nat) : Byte := BitVec.ofNat 8 (if n ≤ 9 then 0x30 + n else 0x61 + (n - 10))

theorem hexChar_eq_hexDigit (n : BitVec 4) : hexChar n = hexDigit n.toNat := by
  have hn := n.isLt
  apply BitVec.eq_of_toNat_eq
  unfold hexChar hexDigit
  split
  case isTrue => bv_omega
  case isFalse => bv_omega

/-- The two characters of a byte are those of its high and of its low nibble (R117). -/
theorem hexByte_eq (x : Byte) : hexByte x = [hexDigit (x.toNat / 16), hexDigit (x.toNat % 16)] := by
  have hhigh : (x.extractLsb' 4 4).toNat = x.toNat / 16 := by
    have := x.isLt
    simp [Nat.shiftRight_eq_div_pow]; omega
  have hlow : (x.extractLsb' 0 4).toNat = x.toNat % 16 := by simp
  rw [hexByte, hexChar_eq_hexDigit, hexChar_eq_hexDigit, hhigh, hlow]

@[simp] theorem length_hexWords (p : Profile) (ws : List Word) :
    (hexWords p ws).length = 2 * (ws.length * p.wordBytes) := by
  rw [hexWords_eq, flatMap_hexByte_length, flatMap_leBytes_length]

/-- Characters `2n` and `2n + 1`, for `n = i*(W/8) + b`, are those of byte `b` of word `i` (R117, R119). -/
theorem hexWords_getElem? (p : Profile) (ws : List Word) {i b : Nat} (hi : i < ws.length) (hb : b < p.wordBytes) :
    (hexWords p ws)[2 * (i * p.wordBytes + b)]? = some (hexDigit ((byteOf ws[i] b).toNat / 16)) ∧
    (hexWords p ws)[2 * (i * p.wordBytes + b) + 1]? = some (hexDigit ((byteOf ws[i] b).toNat % 16)) := by
  obtain ⟨hn, hbyte⟩ := List.getElem?_eq_some_iff.1 (flatMap_leBytes p ws i b hi hb)
  have hpair := flatMap_pair hexByte (fun _ => rfl) (ws.flatMap (leBytes p)) _ hn
  rw [hbyte, hexByte_eq] at hpair
  rw [hexWords_eq]
  exact hpair

@[simp] theorem words_length (v : Vec8) : v.words.length = 8 := rfl

theorem words_getElem (v : Vec8) (i : Nat) (h : i < 8) : v.words[i]'h = v[i] := by
  have all : ∀ j : Fin 8, v.words[j] = v[j] := by simp [Fin.forall_fin_succ, Vec8.words]
  exact all ⟨i, h⟩

/-! ## FORMAT (R121) -/

/-- The two characters of byte `b` of `CV[i]` in the digest. -/
theorem formatDigest_getElem? (p : Profile) (cv : Vec8) (i : Fin 8) {b : Nat} (hb : b < p.wordBytes) :
    let x := cv[i].toNat / 2 ^ (8 * b) % 256
    (formatDigest p cv)[2 * (i * p.wordBytes + b)]? = some (hexDigit (x / 16)) ∧
    (formatDigest p cv)[2 * (i * p.wordBytes + b) + 1]? = some (hexDigit (x % 16)) := by
  have h := hexWords_getElem? p cv.words (i := i) i.isLt hb
  rw [words_getElem cv i i.isLt, byteOf_toNat] at h
  exact h

theorem length_formatDigest (p : Profile) (cv : Vec8) : (formatDigest p cv).length = 16 * p.wordBytes := by
  rw [formatDigest, length_hexWords, words_length]; omega

/-- A byte of DIGEST after FORMAT: a character of the digest, or 0 after the last one. -/
theorem bufByte_after_format (s : State) {j : Nat} (hj : j < 128) :
    (complete .none (writeDigest s)).bufByte (0x200 + j)
      = some ((formatDigest s.inst.profile s.cv).getD j 0) := by
  have hlen : (formatDigest s.inst.profile s.cv).length ≤ 128 := by
    have := wordBytes_le s.inst.profile
    rw [length_formatDigest]; omega
  rw [bufByte_digest _ hj]
  exact digestImage_read hlen hj

/-- A character of the digest stands at its place in DIGEST. -/
theorem bufByte_after_format_of_getElem? {s : State} {j : Nat} {c : Byte}
    (h : (formatDigest s.inst.profile s.cv)[j]? = some c) :
    (complete .none (writeDigest s)).bufByte (0x200 + j) = some c := by
  obtain ⟨hj, rfl⟩ := List.getElem?_eq_some_iff.1 h
  have := wordBytes_le s.inst.profile
  rw [bufByte_after_format s (by rw [length_formatDigest] at hj; omega), List.getD_eq_getElem _ _ hj]

/-- Settles O33: FORMAT writes the characters of the digest and then zeros into DIGEST, and nothing else. -/
theorem formatWritesTheHexDigest : Obligations.FormatWritesTheHexDigest := by
  intro s wb char
  refine ⟨complete .none (writeDigest s), rfl, rfl, fun i b hb => ?chars, fun j hlow hj => ?zeros,
    fun off hoff => ?other⟩
  case chars =>
    obtain ⟨hhigh, hlow⟩ := formatDigest_getElem? s.inst.profile s.cv i hb
    exact ⟨bufByte_after_format_of_getElem? hhigh, bufByte_after_format_of_getElem? hlow⟩
  case zeros =>
    rw [bufByte_after_format s hj, List.getD_eq_default _ _ (by rwa [length_formatDigest])]
  case other =>
    exact bufByte_congr_outside_digest (s := s) (t := complete .none (writeDigest s)) rfl rfl hoff

/-! ## GFOLD (R125) -/

theorem length_formatG_le (p : Profile) (st : Vec8) : (formatG p st).length ≤ 128 := by
  have hout := (Config.gOutWords p).isLt
  calc (formatG p st).length = 2 * ((8 - (8 - (Config.gOutWords p).val)) * p.wordBytes) := by
        rw [formatG, length_hexWords, List.length_drop, words_length]
    _ ≤ 2 * (8 * 8) := Nat.mul_le_mul_left _ (Nat.mul_le_mul (by omega) (wordBytes_le p))

/-- Settles O34: the states of the fold are the ones the model computes, and the padded message is whole blocks. -/
theorem gfoldFoldsThePaddedMessage : Obligations.GfoldFoldsThePaddedMessage := by
  intro s d hl hd p w n
  have hblocks : w.length = n * gBlockWords p :=
    (Nat.div_mul_cancel (Nat.dvd_of_mod_eq_zero (length_toWordsG_padG p d))).symm
  exact ⟨_, foldG p w, withMessage_of_message hl hd _, hblocks, rfl, fun _ _ => rfl, rfl,
    fun j hj => digestImage_read (length_formatG_le p _) hj⟩

/-! ## The padder (R122) -/

/-- The padding length is the least one that gives the residue: two of them differ by a multiple of the block
size, and it is below the block size. -/
theorem padLength_le {BB : Nat} (hB : 0 < BB) {residue n y : Nat} (hy : (n + y) % BB = residue % BB) :
    padLength BB residue n ≤ y := by
  obtain ⟨hres, hlt⟩ := padLength_spec hB residue n
  have hmod : padLength BB residue n % BB = y % BB := Nat.ModEq.add_left_cancel' n (hres.trans hy.symm)
  calc padLength BB residue n = y % BB := by rw [← hmod, Nat.mod_eq_of_lt hlt]
    _ ≤ y := Nat.mod_le _ _

theorem length_pad80 (p : Profile) (m : List Byte) : (pad80 p m).length
    = m.length + 1 + padLength (gBlockBytes p) (Config.gResidue p) (m.length + 1) := by
  simp only [pad80, List.length_append, List.length_singleton, List.length_replicate]

/-- Settles O35. -/
theorem pluginPaddingReachesTheResidue : Obligations.PluginPaddingReachesTheResidue := by
  intro p m
  have hB := gBlockBytes_pos p
  refine ⟨_, rfl, ?_, fun y hy => padLength_le hB hy, rfl, hB, length_padG_mod p m, Nat.mul_mod_left _ _⟩
  rw [length_pad80]
  exact (padLength_spec hB _ _).1

end Sys2Proof.Machine
end

section
/-! The commands that run UBI calls (42_ubi.md): the call as a function of the instance, the data, the tag and CV;
from it UBI, CONFIG and OUTPUT (O42), a call of one block as BLOCK (O44), INIT (O45) and LOADIV (O39), HASH as HASHSEQ
(O46), and HASH run again (O47). -/

namespace Sys2Proof.Machine

open Sys2Proof

/-! ## What a UBI call reads and writes -/

/-- `u` with the step registers of `r`: the registers that a block step writes. -/
def State.withStepRegistersOf (u r : State) : State :=
  { u with cv := r.cv, blk := r.blk, v := r.v, ks := r.ks, t := r.t, pos := r.pos }

theorem SameOutsideStep.eq_withStepRegistersOf {u r : State} (h : SameOutsideStep u r) :
    r = u.withStepRegistersOf r := by
  obtain ⟨hinst, hiv, hlen, hcmd, hstatus, hie, hdigest, hmsg, hagenda, hrdata, hdraws⟩ := h
  simp only [State.withStepRegistersOf, ← hinst, ← hiv, ← hlen, ← hcmd, ← hstatus, ← hie, ← hdigest, ← hmsg,
    ← hagenda, ← hrdata, ← hdraws]

/-- A block step reads the instance and CV, besides its arguments (R145). -/
theorem blockStep_eq_of_cv {s u : State} (hi : u.inst = s.inst) (hc : u.cv = s.cv) (b : Vec8) (q : BitVec 64)
    (type : BitVec 6) (first final : Bool) :
    blockStep b q type first final u = u.withStepRegistersOf (blockStep b q type first final s) := by
  rw [(blockStep_frame b q type first final u).eq_withStepRegistersOf]
  simp only [State.withStepRegistersOf, blockStep_cv, blockStep_blk, blockStep_v, blockStep_ks, blockStep_t,
    blockStep_pos, hi, hc]

/-- A UBI call reads the instance and CV, besides its arguments: its last block sets every step register (R146). -/
theorem ubi_eq_of_cv {s u : State} (hi : u.inst = s.inst) (hc : u.cv = s.cv) (type : BitVec 6) (d : List Byte) :
    ubi type d u = u.withStepRegistersOf (ubi type d s) := by
  obtain ⟨k, hk⟩ : ∃ k, nblocks s.inst d.length = k + 1 :=
    Nat.exists_eq_succ_of_ne_zero (nblocks_pos s.inst d.length).ne'
  have hcv := ubiBlocks_cv_congr hi hc type d (k + 1) k
  have hinst := (ubiBlocks_frame type d (k + 1) u k).inst.trans
    (hi.trans (ubiBlocks_frame type d (k + 1) s k).inst.symm)
  rw [(ubi_frame type d u).eq_withStepRegistersOf]
  rw [ubi, ubi, hi, hk, ubiBlocks_succ, ubiBlocks_succ, hi, blockStep_eq_of_cv hinst hcv]
  rfl

/-- A UBI call does not see STATUS. -/
theorem ubi_complete (type : BitVec 6) (d : List Byte) (e : ErrCode) (s : State) :
    ubi type d (complete e s) = complete e (ubi type d s) := by
  calc ubi type d (complete e s) = (complete e s).withStepRegistersOf (ubi type d s) :=
      ubi_eq_of_cv (s := s) (u := complete e s) rfl rfl type d
    _ = complete e (s.withStepRegistersOf (ubi type d s)) := rfl
    _ = complete e (ubi type d s) := by rw [← (ubi_frame type d s).eq_withStepRegistersOf]

theorem outputPhase_complete (e : ErrCode) (s : State) :
    outputPhase (complete e s) = complete e (outputPhase s) :=
  ubi_complete tagOut (outData s.inst) e s

/-- The output phase reads the instance and CV alone (R158). -/
theorem outputPhase_withStepRegistersOf {u r : State} (hi : u.inst = r.inst) :
    outputPhase (u.withStepRegistersOf r) = u.withStepRegistersOf (outputPhase r) := by
  have hubi := ubi_eq_of_cv (s := r) (u := u.withStepRegistersOf r) hi rfl tagOut (outData r.inst)
  rw [← hi] at hubi
  rw [outputPhase, outputPhase, ← hi]
  exact hubi

/-! ## UBI, CONFIG and OUTPUT (R146, R150, R156, R158) -/

/-- After a change of the step registers, completing sets STATUS as it was then (R195). -/
theorem SameOutsideStep.complete_eq {s u : State} (h : SameOutsideStep s u) :
    complete .none u = { u with status := s.status.succeeded } := by
  rw [← h.status]
  rfl

/-- Settles O42: each command is one UBI call and its completion. -/
theorem ubiCommandsRunUbiCalls : Obligations.UbiCommandsRunUbiCalls := by
  intro s
  have hcall : ∀ type d, UbiCall type d s (ubi type d s) ∧
      finish (ubi type d s) = .next { ubi type d s with status := s.status.succeeded } :=
    fun type d => ⟨ubi_call type d s, congrArg _ (ubi_frame type d s).complete_eq⟩
  refine ⟨fun type d hl hd => ?ubi, ⟨_, hcall tagCfg _⟩, ⟨_, hcall tagOut _⟩⟩
  case ubi =>
    obtain ⟨hends, hfinish⟩ := hcall type d
    exact ⟨_, hends, (withMessage_of_message hl hd _).trans hfinish⟩

/-! ## A UBI call of one block (R154 to R159) -/

/-- Data shorter than a block, empty or not, takes one block (R106). -/
theorem nblocks_of_lt_block {c : Instance} {L : Nat} (h : L < c.profile.blockBytes) : nblocks c L = 1 := by
  rcases Nat.eq_zero_or_pos L with rfl | hL
  · exact nblocks_zero c
  · have hrounded : (L + c.profile.blockBytes - 1) / c.profile.blockBytes = 1 :=
      Nat.div_eq_of_lt_le (by omega) (by omega)
    rw [nblocks_of_pos c hL, hrounded, Nat.mod_eq_of_lt h, if_neg (by omega)]

/-- Over data shorter than a block a UBI call is one block step, first and final, at the data's length. -/
theorem ubi_of_lt_block {s : State} {d : List Byte} (h : d.length < s.inst.profile.blockBytes) (type : BitVec 6) :
    ubi type d s
      = blockStep (wordsOf s.inst.profile d) (BitVec.ofNat 64 d.length) type true true s := by
  rw [ubi, nblocks_of_lt_block h, ubiBlocks_succ, blockWords, Nat.zero_mul, List.drop_zero]
  rfl

theorem wordsOf_cfgData_sk512 :
    wordsOf .sk512 (cfgData .sk512) = #v[0x0000000133414853, 0x0000000000000200, 0, 0, 0, 0, 0, 0] := by
  decide

theorem wordsOf_eight_zeros (p : Profile) :
    wordsOf p (List.replicate 8 0) = #v[0, 0, 0, 0, 0, 0, 0, 0] := by
  cases p <;> decide

theorem configPhase_sk512 {s : State} (h : s.inst.profile = .sk512) :
    configPhase s
      = blockStep #v[0x0000000133414853, 0x0000000000000200, 0, 0, 0, 0, 0, 0] 32 tagCfg true true s := by
  have hlength : (cfgData s.inst.profile).length = 32 := by rw [h]; rfl
  have hshort : (cfgData s.inst.profile).length < s.inst.profile.blockBytes := by rw [hlength, h]; decide
  rw [configPhase, ubi_of_lt_block hshort, hlength, h, wordsOf_cfgData_sk512]
  rfl

/-- OUT_DATA is 8 zero bytes in SK512, and in SK256 by default (R159). -/
theorem outData_of_default {c : Instance} (h : c.profile = .sk512 ∨ c.outData32 = List.replicate 8 0) :
    outData c = List.replicate 8 0 := by
  cases hp : c.profile with
  | sk512 => exact outData_sk512 hp
  | sk256 => rw [outData_sk256 hp]; exact h.resolve_left (by simp [hp])

theorem outputPhase_of_default {s : State}
    (h : s.inst.profile = .sk512 ∨ s.inst.outData32 = List.replicate 8 0) :
    outputPhase s = blockStep #v[0, 0, 0, 0, 0, 0, 0, 0] 8 tagOut true true s := by
  have hshort : (List.replicate 8 (0 : Byte)).length < s.inst.profile.blockBytes := by
    rcases blockBytes_eq s.inst.profile with hB | hB <;> rw [hB] <;> decide
  rw [outputPhase, outData_of_default h, ubi_of_lt_block hshort, wordsOf_eight_zeros]
  rfl

/-- Settles O44: each phase is one block step, and BLOCK runs the same one. -/
theorem constantPhasesRunOneBlock : Obligations.ConstantPhasesRunOneBlock :=
  fun _ => ⟨fun h => ⟨_, congrArg finish (configPhase_sk512 h), rfl⟩,
    fun h => ⟨_, congrArg finish (outputPhase_of_default h), rfl⟩⟩

/-! ## INIT (R157) -/

theorem exec_init_of_valid {s : State} (h : s.status.ivv = true) : exec .init s = finish s := by
  simp only [exec, execInit, h, if_true]

theorem exec_init_of_invalid {s : State} (h : s.status.ivv = false) :
    exec .init s = finish (storeIv (configPhase { s with cv := Vec8.zero })) := by
  simp only [exec, execInit, h, Bool.false_eq_true, if_false]

/-- Settles O45: storing the IV before the completion is storing it after. -/
theorem initComputesTheIvOnce : Obligations.InitComputesTheIvOnce :=
  fun _ => ⟨exec_init_of_valid, fun h => ⟨_, rfl, exec_init_of_invalid h⟩⟩

/-! ## LOADIV (R152) -/

theorem exec_loadiv_of_valid {s : State} (h : s.status.ivv = true) :
    exec .loadiv s = finish { s with cv := s.iv } := by
  simp only [exec, execLoadiv, h, if_true]

theorem exec_loadiv_of_invalid {s : State} (h : s.status.ivv = false) : exec .loadiv s = raise .noIv s := by
  simp only [exec, execLoadiv, h, Bool.false_eq_true, if_false]

/-- Settles O39. -/
theorem loadivCopiesTheIv : Obligations.LoadivCopiesTheIv :=
  fun _ => ⟨exec_loadiv_of_valid, exec_loadiv_of_invalid⟩

/-! ## HASH (R160) -/

/-- What HASH does to `s` for the message `d`, before its completion. -/
def hashEffect (d : List Byte) (s : State) : State :=
  writeDigest (outputPhase (ubi tagMsg d { s with cv := s.iv }))

theorem exec_hash_of_message {s : State} {d : List Byte} (hv : s.status.ivv = true) (hl : s.LenAccepted)
    (hd : s.Message d) : exec .hash s = .next (complete .none (hashEffect d s)) := by
  simp only [exec, execHash, hv, if_true]
  exact withMessage_of_message hl hd _

/-- HASH without an error found a valid IV, an accepted LEN and a written message. -/
theorem exec_hash_of_no_error {s t : State} (h : exec .hash s = .next t) (he : t.status.err = .none) :
    s.status.ivv = true ∧ s.LenAccepted ∧ ∃ d, s.Message d ∧ t = complete .none (hashEffect d s) := by
  cases hv : s.status.ivv with
  | false =>
    simp only [exec, execHash, hv, Bool.false_eq_true, if_false, raise_eq_next] at h
    subst h
    cases he
  | true =>
    simp only [exec, execHash, hv, if_true] at h
    obtain ⟨e, herr, rfl⟩ | ⟨hl, d, hd, rfl⟩ := (withMessage_eq_next s t _).1 h
    · rw [complete_status, Status.complete_err] at he
      rcases (inputError_eq_some s e).1 herr with ⟨-, rfl⟩ | ⟨-, -, rfl⟩ <;> cases he
    · exact ⟨rfl, (inputError_eq_none s).1 hl, d, (messageData_eq_some s d).1 hd, rfl⟩

theorem exec_ubi_of_message {s : State} {d : List Byte} (hl : s.LenAccepted) (hd : s.Message d) (type : BitVec 6) :
    exec (.ubi type) s = .next (complete .none (ubi type d s)) :=
  withMessage_of_message hl hd _

theorem complete_complete (e e' : ErrCode) (s : State) : complete e' (complete e s) = complete e' s := rfl

theorem writeDigest_complete (e : ErrCode) (s : State) :
    writeDigest (complete e s) = complete e (writeDigest s) := rfl

/-- HASHSEQ is the effect of HASH: its phases do not see the completions between them. -/
theorem execAll_hashSeq_of_message {s : State} {d : List Byte} (hv : s.status.ivv = true) (hl : s.LenAccepted)
    (hd : s.Message d) : execAll hashSeq s = .next (complete .none (hashEffect d s)) := by
  have hubi := exec_ubi_of_message (s := complete .none { s with cv := s.iv }) hl hd tagMsg
  have houtput : ∀ u, exec .output u = .next (complete .none (outputPhase u)) := fun _ => rfl
  have hformat : ∀ u, exec .format u = .next (complete .none (writeDigest u)) := fun _ => rfl
  simp only [hashSeq, execAll, exec_loadiv_of_valid hv, finish, hubi, houtput, hformat, ubi_complete,
    outputPhase_complete, writeDigest_complete, complete_complete, hashEffect]

/-- Settles O46. -/
theorem hashEqualsHashSeq : Obligations.HashEqualsHashSeq :=
  fun _ _ hv hl hd => ⟨rfl, _, exec_hash_of_message hv hl hd, execAll_hashSeq_of_message hv hl hd⟩

/-- HASH reads the instance and IV, besides the message (R160). -/
theorem hashEffect_eq_of_iv {s u : State} (hi : u.inst = s.inst) (hiv : u.iv = s.iv) (d : List Byte) :
    hashEffect d u = writeDigest (u.withStepRegistersOf (hashEffect d s)) := by
  have hubi : ubi tagMsg d { u with cv := u.iv } = u.withStepRegistersOf (ubi tagMsg d { s with cv := s.iv }) :=
    ubi_eq_of_cv (s := { s with cv := s.iv }) (u := { u with cv := u.iv }) hi hiv tagMsg d
  have hinst : u.inst = (ubi tagMsg d { s with cv := s.iv }).inst := by rw [ubi_inst, hi]
  rw [hashEffect, hubi, outputPhase_withStepRegistersOf hinst]
  rfl

/-- Writing the digest and completing, once done, changes nothing when done again. -/
theorem complete_writeDigest_again (r : State) :
    complete .none (writeDigest ((complete .none (writeDigest r)).withStepRegistersOf (writeDigest r)))
      = complete .none (writeDigest r) := by
  simp only [complete, writeDigest, State.withStepRegistersOf, Status.complete]

/-- HASH over the same message comes to its own result, for it keeps the instance and IV. -/
theorem hashEffect_hashEffect (d : List Byte) (s : State) :
    complete .none (hashEffect d (complete .none (hashEffect d s))) = complete .none (hashEffect d s) := by
  have hiv : (hashEffect d s).iv = s.iv := (outputPhase_frame _).iv.trans (ubi_frame _ _ _).iv
  have hinst : (hashEffect d s).inst = s.inst := (hash_keeps s d).inst
  rw [hashEffect_eq_of_iv (u := complete .none (hashEffect d s)) hinst hiv]
  exact complete_writeDigest_again (outputPhase _)

/-- Settles O47. -/
theorem hashIsRepeatable : Obligations.HashIsRepeatable := by
  intro s t h he
  obtain ⟨hv, hl, d, hd, rfl⟩ := exec_hash_of_no_error h he
  have hkeeps : EngineKeeps s (complete .none (hashEffect d s)) := (hash_keeps s d).trans (complete_keeps _ _)
  rw [exec_hash_of_message (hkeeps.valid_iv hv).2 (hkeeps.lenAccepted hl) (hkeeps.message hd),
    hashEffect_hashEffect]

end Sys2Proof.Machine
end

section
/-! The commands around a block step (42_ubi.md): TWEAK (O36), KSCHED (O37), the moves of one vector (O38) and BLOCK
(O41). -/

namespace Sys2Proof.Machine

open Sys2Proof

/-! ## TWEAK (R131, R132) -/

theorem shifted_flag_getLsbD (b : Bool) {k : Nat} (hk : k < 64) (n : Nat) :
    ((BitVec.ofBool b).setWidth 64 <<< k).getLsbD n = (decide (n = k) && b) := by
  simp only [BitVec.getLsbD_shiftLeft, BitVec.getLsbD_setWidth, BitVec.getLsbD_ofBool]
  rcases Nat.lt_trichotomy n k with h | rfl | h
  · simp [h, h.ne]
  · simp [hk]
  · simp [h.ne', show n - k ≠ 0 by omega]

theorem shifted_type_getLsbD (type : BitVec 6) (n : Nat) :
    (type.setWidth 64 <<< 56).getLsbD n = (decide (56 ≤ n) && type.getLsbD (n - 56)) := by
  simp only [BitVec.getLsbD_shiftLeft, BitVec.getLsbD_setWidth]
  rcases Nat.lt_or_ge n 56 with hlow | hlow
  · simp [hlow, Nat.not_le.2 hlow]
  · rcases Nat.lt_or_ge n 64 with hhigh | hhigh
    · simp [hlow, hhigh, Nat.not_lt.2 hlow, show n - 56 < 64 by omega]
    · simp [BitVec.getLsbD_of_ge type (n - 56) (by omega)]

/-- `T[1]` of SK512: the type from bit 56 on, `first` in bit 62, `final` in bit 63 (R131). -/
theorem tweakPair_sk512_getLsbD (q : BitVec 64) (type : BitVec 6) (first final : Bool) (n : Nat) :
    (tweakPair .sk512 q type first final).2.getLsbD n
      = (decide (56 ≤ n) && type.getLsbD (n - 56) || decide (n = 62) && first || decide (n = 63) && final) := by
  rw [tweakPair, BitVec.getLsbD_or, BitVec.getLsbD_or, shifted_type_getLsbD,
    shifted_flag_getLsbD first (by decide), shifted_flag_getLsbD final (by decide)]

theorem tweakPair_sk512_bits (q : BitVec 64) (type : BitVec 6) (first final : Bool) :
    (tweakPair .sk512 q type first final).2.extractLsb' 0 56 = 0 ∧
    (tweakPair .sk512 q type first final).2.extractLsb' 56 6 = type ∧
    (tweakPair .sk512 q type first final).2.getLsbD 62 = first ∧
    (tweakPair .sk512 q type first final).2.getLsbD 63 = final := by
  refine ⟨extractLsb'_eq_of_bits fun i hi => ?low, extractLsb'_eq_of_bits fun i hi => ?type, ?first, ?final⟩ <;>
    rw [tweakPair_sk512_getLsbD]
  case low => simp [show ¬ 56 ≤ i by omega, show i ≠ 62 by omega, show i ≠ 63 by omega]
  case type => simp [show 56 + i ≠ 62 by omega, show 56 + i ≠ 63 by omega]
  case first => simp
  case final => simp

/-- A word of 32 bits held in 64 has zeros above (log 23). -/
theorem setWidth_eq_zero_append (w : BitVec 32) : w.setWidth 64 = 0#32 ++ w :=
  BitVec.setWidth_eq_append (by decide)

/-- Settles O36. -/
theorem tweakSetsTheTweakWords : Obligations.TweakSetsTheTweakWords := by
  intro s type first final
  refine ⟨_, rfl, rfl, rfl, fun hp => ?sk512, fun hp => ?sk256⟩
  case sk512 =>
    simp only [complete_t, tweak, hp]
    exact ⟨rfl, tweakPair_sk512_bits s.pos type first final⟩
  case sk256 =>
    simp only [complete_t, tweak, hp]
    exact ⟨setWidth_eq_zero_append _, setWidth_eq_zero_append _⟩

/-! ## KSCHED (R134, R135) -/

theorem toList_eq_words (v : Vec8) : v.toList = v.words := by
  rw [← Vec8.gen_self v]; rfl

/-- `parity(cv)` is `C_KS` and then every word of `cv`. -/
theorem parity_eq_foldl (p : Profile) (cv : Vec8) :
    parity p cv = cv.toList.foldl (· ^^^ ·) (keyParity p) := by
  rw [toList_eq_words]
  rfl

theorem keySchedule_getElem (p : Profile) (cv : Vec8) (i : Fin 8) : (keySchedule p cv)[i] = cv[i] := by
  have all : ∀ j : Fin 8, (keySchedule p cv)[j] = cv[j] := by simp [Fin.forall_fin_succ, keySchedule]
  exact all i

/-- Settles O37. -/
theorem kschedBuildsTheKeySchedule : Obligations.KschedBuildsTheKeySchedule := by
  intro s
  refine ⟨_, rfl, rfl, fun i hi => keySchedule_getElem s.inst.profile s.cv ⟨i, hi⟩, ?_⟩
  refine (parity_eq_foldl s.inst.profile s.cv).trans (congrArg (s.cv.toList.foldl (· ^^^ ·)) ?_)
  cases s.inst.profile with
  | sk512 => rfl
  | sk256 => exact setWidth_eq_zero_append _

/-! ## One vector, and one block (R138, R140, R153, R176) -/

/-- Settles O38. -/
theorem vectorMoves : Obligations.VectorMoves :=
  fun s => ⟨⟨_, rfl, rfl, fun i => xorVec_getElem s.v s.blk i i.isLt⟩, ⟨_, rfl, rfl, fun _ => rfl⟩,
    ⟨_, rfl, rfl, fun i => Vec8.zero_getElem i i.isLt⟩⟩

/-- Settles O41. -/
theorem blockRunsOneBlockStep : Obligations.BlockRunsOneBlockStep :=
  fun _ _ _ _ => ⟨_, rfl, rfl, fun i => xorVec_getElem _ _ i i.isLt⟩

end Sys2Proof.Machine
end

section
/-! The mix network (43_mix.md): the pairing tables (O48), INJECT (O49), ROUND (O50), ENCRYPT (O51), the cipher as
a bijection (O52) and the rounds with the word permutation (O53). -/

namespace Sys2Proof.Machine

open Sys2Proof

/-! ## The pairing tables (R171, R184) -/

theorem wordPi_iterate_four : ∀ i : Fin 8, wordPi^[4] i = i := by decide

theorem wordPi_injective : Function.Injective wordPi := by decide

/-- Of the neighbouring slots `2j` and `2j + 1` the even one, or with `true` the odd one. -/
def neighbour (q : Fin 4 × Bool) : Fin 8 := ⟨2 * q.1 + q.2.toNat, by have := Bool.toNat_le q.2; omega⟩

theorem neighbour_bijective : Function.Bijective neighbour := by decide

/-- The tables of the first four rounds, which R171 writes out. -/
theorem slots_of_lt_four : ∀ (m j : Fin 4),
    evenSlot m j = wordPi^[m] (neighbour (j, false)) ∧ oddSlot m j = wordPi^[m] (neighbour (j, true)) := by
  decide

theorem wordPi_iterate_mod_four (d : Nat) (i : Fin 8) : wordPi^[d % 4] i = wordPi^[d] i :=
  Function.IsPeriodicPt.iterate_mod_apply (wordPi_iterate_four i) d

theorem evenSlot_eq (d : Nat) (j : Fin 4) : evenSlot d j = wordPi^[d] (neighbour (j, false)) := by
  rw [← wordPi_iterate_mod_four, ← (slots_of_lt_four ⟨d % 4, Nat.mod_lt d (by decide)⟩ j).1]
  simp only [evenSlot, Nat.mod_mod]

theorem oddSlot_eq (d : Nat) (j : Fin 4) : oddSlot d j = wordPi^[d] (neighbour (j, true)) := by
  rw [← wordPi_iterate_mod_four, ← (slots_of_lt_four ⟨d % 4, Nat.mod_lt d (by decide)⟩ j).2]
  simp only [oddSlot, Nat.mod_mod]

/-- In every round each slot belongs to exactly one of the eight places of the four pairs. -/
theorem slots_bijective (d : Nat) :
    Function.Bijective fun q : Fin 4 × Bool => if q.2 then oddSlot d q.1 else evenSlot d q.1 := by
  have hslot : (fun q : Fin 4 × Bool => if q.2 then oddSlot d q.1 else evenSlot d q.1)
      = wordPi^[d] ∘ neighbour := by
    funext ⟨j, odd⟩
    cases odd with
    | false => exact evenSlot_eq d j
    | true => exact oddSlot_eq d j
  rw [hslot]
  exact (Finite.injective_iff_bijective.1 (wordPi_injective.iterate d)).comp neighbour_bijective

/-- Settles O48: the rows are those of the powers of π, which permute the neighbours. -/
theorem pairingTablesComeFromPi : Obligations.PairingTablesComeFromPi :=
  ⟨slots_of_lt_four, wordPi_iterate_four, fun m => (slots_bijective m).existsUnique⟩

theorem evenSlot_ne_oddSlot (d : Nat) (j k : Fin 4) : evenSlot d j ≠ oddSlot d k := fun h => by
  simpa using (slots_bijective d).1 (a₁ := (j, false)) (a₂ := (k, true)) h

theorem evenSlot_injective (d : Nat) : Function.Injective (evenSlot d) := fun j k h =>
  congrArg Prod.fst ((slots_bijective d).1 (a₁ := (j, false)) (a₂ := (k, false)) h)

theorem oddSlot_injective (d : Nat) : Function.Injective (oddSlot d) := fun j k h =>
  congrArg Prod.fst ((slots_bijective d).1 (a₁ := (j, true)) (a₂ := (k, true)) h)

/-! ## INJECT (R173, R177) -/

/-- Two additions modulo 2^W are one addition of both numbers. -/
theorem addW_addW_toNat (p : Profile) (a b c : Word) :
    (addW p (addW p a b) c).toNat = (a.toNat + b.toNat + c.toNat) % 2 ^ p.width := by
  rw [addW_toNat, addW_toNat, Nat.mod_add_mod]

/-- Settles O49: an 8-bit index loses nothing as a word, and two additions to a word are one. -/
theorem injectAddsTheSubkey : Obligations.InjectAddsTheSubkey := by
  intro s n
  have hn : (BitVec.ofNat 64 n.toNat).toNat = n.toNat := by
    rw [BitVec.toNat_ofNat]; exact Nat.mod_eq_of_lt (n.isLt.trans (by decide))
  refine ⟨_, rfl, rfl, fun i hi => ?low, ?five, ?six, ?seven⟩
  case low => exact (congrArg BitVec.toNat (inject_low _ _ _ _ _ i hi)).trans (addW_toNat _ _ _)
  case five => exact (congrArg BitVec.toNat (inject_five _ _ _ _ _)).trans (addW_addW_toNat _ _ _ _)
  case six => exact (congrArg BitVec.toNat (inject_six _ _ _ _ _)).trans (addW_addW_toNat _ _ _ _)
  case seven =>
    refine (congrArg BitVec.toNat (inject_seven _ _ _ _ _)).trans ((addW_addW_toNat _ _ _ _).trans ?_)
    rw [hn]; rfl

/-! ## ROUND (R172, R174, R178) -/

section
variable (p : Profile) (d : Nat) (v : Vec8)

theorem mixStep_evenSlot (j : Fin 4) :
    (mixStep p d v j)[evenSlot d j] = addW p v[evenSlot d j] v[oddSlot d j] :=
  mix_at_a p v (evenSlot_ne_oddSlot d j j) _

theorem mixStep_oddSlot (j : Fin 4) :
    (mixStep p d v j)[oddSlot d j]
      = rotlW p v[oddSlot d j] (rotAmount p d j) ^^^ addW p v[evenSlot d j] v[oddSlot d j] :=
  mix_at_b p v _ _ _

theorem mixStep_evenSlot_of_ne {j k : Fin 4} (h : j ≠ k) :
    (mixStep p d v k)[evenSlot d j] = v[evenSlot d j] :=
  mix_elsewhere p v ((evenSlot_injective d).ne h) (evenSlot_ne_oddSlot d j k) _

theorem mixStep_oddSlot_of_ne {j k : Fin 4} (h : j ≠ k) :
    (mixStep p d v k)[oddSlot d j] = v[oddSlot d j] :=
  mix_elsewhere p v (evenSlot_ne_oddSlot d k j).symm ((oddSlot_injective d).ne h) _

/-- A round mixes each pair as if it were alone, since the pairs share no slot. -/
theorem elemRound_pair (j : Fin 4) :
    (elemRound p v d)[evenSlot d j] = addW p v[evenSlot d j] v[oddSlot d j] ∧
    (elemRound p v d)[oddSlot d j]
      = rotlW p v[oddSlot d j] (rotAmount p d j) ^^^ addW p v[evenSlot d j] v[oddSlot d j] := by
  match j with
  | 0 | 1 | 2 | 3 =>
    simp (disch := decide) only [elemRound, mixStep_evenSlot, mixStep_oddSlot, mixStep_evenSlot_of_ne,
      mixStep_oddSlot_of_ne, and_self]

end

/-- The table of amounts repeats every eight rounds (R172). -/
theorem rotAmount_mod_eight (p : Profile) (d : Nat) (j : Fin 4) : rotAmount p (d % 8) j = rotAmount p d j := by
  cases p <;> simp only [rotAmount, Nat.mod_mod]

/-- Settles O50: the four pairs of a round share no slot. -/
theorem roundMixesFourPairs : Obligations.RoundMixesFourPairs := by
  refine ⟨fun s d => ⟨_, rfl, rfl, fun j => ?pair⟩, fun d j => ?table, fun d j => rfl⟩
  case pair =>
    obtain ⟨heven, hodd⟩ := elemRound_pair s.inst.profile d.toNat s.v j
    exact ⟨heven, hodd.trans (congrArg _ heven.symm)⟩
  case table =>
    have hd : d % 8 < 8 := Nat.mod_lt _ (by decide)
    rw [← rotAmount_mod_eight]
    generalize d % 8 = r at hd
    interval_cases r <;> fin_cases j <;> rfl

/-! ## ENCRYPT (R179, R180) -/

/-- Four rounds of the cipher, with the one injection that comes before them. -/
theorem cipherSteps_four_mul_succ (p : Profile) (ks : Vector Word 9) (t : Vector Word 3) (v : Vec8) (k : Nat) :
    cipherSteps p ks t v (4 * (k + 1))
      = elemRound p (elemRound p (elemRound p (elemRound p
          (inject p (cipherSteps p ks t v (4 * k)) ks t k) (4 * k)) (4 * k + 1)) (4 * k + 2)) (4 * k + 3) := by
  simp [Nat.mul_add, cipherSteps, Nat.add_mod]

/-- What a command that writes `w` to V and completes without an error leaves of `s`. -/
def State.wroteV (s : State) (w : Vec8) : State := complete .none { s with v := w }

theorem toNat_ofNat_byte {n : Nat} (hn : n < 256) : (BitVec.ofNat 8 n).toNat = n := by
  rw [BitVec.toNat_ofNat]; exact Nat.mod_eq_of_lt hn

theorem exec_inject_wroteV {n : Nat} (hn : n < 256) (s : State) (w : Vec8) :
    exec (.inject (BitVec.ofNat 8 n)) (s.wroteV w) = .next (s.wroteV (inject s.inst.profile w s.ks s.t n)) := by
  conv_rhs => rw [← toNat_ofNat_byte hn]
  rfl

theorem exec_round_wroteV {d : Nat} (hd : d < 256) (s : State) (w : Vec8) :
    exec (.round (BitVec.ofNat 8 d)) (s.wroteV w) = .next (s.wroteV (elemRound s.inst.profile w d)) := by
  conv_rhs => rw [← toNat_ofNat_byte hd]
  rfl

/-- INJECT k and the four ROUNDs after it run four rounds of the cipher. -/
theorem execAll_macroRound {k : Nat} (hk : k < 18) (s : State) (b : Vec8) :
    execAll (macroRound k) (s.wroteV (cipherSteps s.inst.profile s.ks s.t b (4 * k)))
      = .next (s.wroteV (cipherSteps s.inst.profile s.ks s.t b (4 * (k + 1)))) := by
  simp only [macroRound, execAll, exec_inject_wroteV (show k < 256 by omega),
    exec_round_wroteV (show 4 * k < 256 by omega), exec_round_wroteV (show 4 * k + 1 < 256 by omega),
    exec_round_wroteV (show 4 * k + 2 < 256 by omega), exec_round_wroteV (show 4 * k + 3 < 256 by omega),
    cipherSteps_four_mul_succ]

/-- VLOAD and the first `k` groups leave in V what the first `4k` rounds of the cipher give. -/
theorem execAll_groups (s : State) (k : Nat) (hk : k ≤ 18) :
    execAll (.vload :: (List.range k).flatMap macroRound) s
      = .next (s.wroteV (cipherSteps s.inst.profile s.ks s.t s.blk (4 * k))) := by
  induction k with
  | zero => rfl
  | succ k ih =>
    rw [List.range_succ, List.flatMap_append, List.flatMap_singleton, ← List.cons_append,
      execAll_append (ih (by omega)), execAll_macroRound hk]

theorem execAll_stepEncrypt (s : State) :
    execAll stepEncrypt s = .next (s.wroteV (cipher s.inst.profile s.ks s.t s.blk)) := by
  rw [stepEncrypt, execAll_append (execAll_groups s 18 le_rfl), execAll,
    BitVec.ofNat_eq_ofNat, exec_inject_wroteV (show 18 < 256 by decide)]
  rfl

/-- Settles O51: each group runs four rounds of the cipher, for the indices fit the command word. -/
theorem encryptEqualsStepEncrypt : Obligations.EncryptEqualsStepEncrypt := fun s =>
  ⟨s.wroteV (cipher s.inst.profile s.ks s.t s.blk), rfl, execAll_stepEncrypt s, rfl⟩

/-! ## The cipher is a bijection (R182) -/

/-- The states of `W`-bit words. -/
def fitting (p : Profile) : Set Vec8 := {v | FitsVec p v}

/-- `f` takes states of `W`-bit words to such states, and no two of them to the same one. -/
structure FitInjection (p : Profile) (f : Vec8 → Vec8) : Prop where
  mapsTo : Set.MapsTo f (fitting p) (fitting p)
  injOn : Set.InjOn f (fitting p)

theorem FitInjection.comp {p : Profile} {g f : Vec8 → Vec8} (hg : FitInjection p g) (hf : FitInjection p f) :
    FitInjection p (g ∘ f) :=
  ⟨hg.mapsTo.comp hf.mapsTo, hg.injOn.comp hf.injOn hf.mapsTo⟩

theorem fitting_finite (p : Profile) : (fitting p).Finite :=
  have : Finite Word := Finite.of_injective BitVec.toFin fun _ _ => BitVec.eq_of_toFin_eq
  have : Finite Vec8 := Finite.of_injective (fun v (i : Fin 8) => v[i]) fun _ _ h => Vec8.ext (congrFun h)
  Set.toFinite _

/-- There are finitely many states of `W`-bit words, so that an injection reaches each of them. -/
theorem FitInjection.bijOn {p : Profile} {f : Vec8 → Vec8} (h : FitInjection p f) :
    Set.BijOn f (fitting p) (fitting p) :=
  ((fitting_finite p).injOn_iff_bijOn_of_mapsTo h.mapsTo).1 h.injOn

theorem addW_right_cancel {p : Profile} {a b c : Word} (ha : FitsWord p a) (hb : FitsWord p b)
    (h : addW p a c = addW p b c) : a = b := by
  have hmod : a.toNat + c.toNat ≡ b.toNat + c.toNat [MOD 2 ^ p.width] := by
    simpa only [addW_toNat, Nat.ModEq] using congrArg BitVec.toNat h
  exact BitVec.eq_of_toNat_eq ((Nat.ModEq.add_right_cancel' _ hmod).eq_of_lt_of_lt ha hb)

/-- Every bit of a word stands in its rotation, `r` places up, modulo the width. -/
theorem rotateLeft_injective {w : Nat} (r : Nat) : Function.Injective fun x : BitVec w => x.rotateLeft r := by
  intro x y h
  ext i hi
  have hbit : ∀ k (hk : k < w), (x.rotateLeft r)[k] = (y.rotateLeft r)[k] := fun k hk => congrArg (·[k]) h
  simp only [BitVec.getElem_rotateLeft] at hbit
  have hr : r % w < w := Nat.mod_lt r (by omega)
  rcases Nat.lt_or_ge (i + r % w) w with hlow | hhigh
  · simpa using hbit (i + r % w) hlow
  · have hk : i + r % w - w < r % w := by omega
    simpa [hk, show w - r % w + (i + r % w - w) = i by omega] using hbit (i + r % w - w) (by omega)

/-- A rotation by any amount loses nothing of a `W`-bit word. -/
theorem rotlW_cancel {p : Profile} {a b : Word} (ha : FitsWord p a) (hb : FitsWord p b) {r : Nat}
    (h : rotlW p a r = rotlW p b r) : a = b := by
  cases p with
  | sk512 => exact rotateLeft_injective r h
  | sk256 =>
    have hrot := congrArg (BitVec.setWidth 32) h
    simp only [rotlW, BitVec.setWidth_setWidth_of_le _ (show 32 ≤ 64 by decide), BitVec.setWidth_eq] at hrot
    have hwide := congrArg (BitVec.setWidth 64) (rotateLeft_injective r hrot)
    exact (trunc_of_fits ha).symm.trans (hwide.trans (trunc_of_fits hb))

/-- The new even word undoes the exclusive-or, and then the old odd word undoes the sum (R174). -/
theorem mix_injOn (p : Profile) {a b : Fin 8} (hab : a ≠ b) (r : Nat) :
    Set.InjOn (fun v => mix p v a b r) (fitting p) := by
  intro v hv w hw h
  have hword : ∀ x : Fin 8, (mix p v a b r)[x] = (mix p w a b r)[x] := fun x => congrArg (·[x]) h
  have hsum := hword a
  rw [mix_at_a p v hab, mix_at_a p w hab] at hsum
  have hodd : v[b] = w[b] := by
    have := hword b
    rw [mix_at_b, mix_at_b, hsum, BitVec.xor_left_inj] at this
    exact rotlW_cancel (hv b b.isLt) (hw b b.isLt) this
  have heven : v[a] = w[a] := by
    rw [hodd] at hsum
    exact addW_right_cancel (hv a a.isLt) (hw a a.isLt) hsum
  refine Vec8.ext fun x => ?_
  by_cases hxa : x = a
  · rw [hxa, heven]
  by_cases hxb : x = b
  · rw [hxb, hodd]
  simpa only [mix_elsewhere p _ hxa hxb] using hword x

theorem fitInjection_mixStep (p : Profile) (d : Nat) (j : Fin 4) : FitInjection p fun v => mixStep p d v j :=
  ⟨fun _ h => fits_mix h _ _ _, mix_injOn p (evenSlot_ne_oddSlot d j j) _⟩

theorem fitInjection_elemRound (p : Profile) (d : Nat) : FitInjection p fun v => elemRound p v d :=
  (((fitInjection_mixStep p d 3).comp (fitInjection_mixStep p d 2)).comp (fitInjection_mixStep p d 1)).comp
    (fitInjection_mixStep p d 0)

section
variable (p : Profile) (ks : Vector Word 9) (t : Vector Word 3)

/-- Every word has something added to it that does not depend on the vector (R173). -/
theorem inject_injOn (s : Nat) : Set.InjOn (fun v => inject p v ks t s) (fitting p) := by
  intro v hv w hw h
  have hword : ∀ i (hi : i < 8), (inject p v ks t s)[i] = (inject p w ks t s)[i] := fun i _ => congrArg (·[i]) h
  refine Vector.ext fun i hi => ?_
  have cancel {c : Word} : addW p v[i] c = addW p w[i] c → v[i] = w[i] := addW_right_cancel (hv i hi) (hw i hi)
  have cancel₂ {c e : Word} (h : addW p (addW p v[i] c) e = addW p (addW p w[i] c) e) : v[i] = w[i] :=
    cancel (addW_right_cancel (fits_addW _ _ _) (fits_addW _ _ _) h)
  obtain hlow | rfl | rfl | rfl : i < 5 ∨ i = 5 ∨ i = 6 ∨ i = 7 := by omega
  · exact cancel (by simpa only [inject_low _ _ _ _ _ i hlow] using hword i hi)
  · exact cancel₂ (by simpa only [inject_five] using hword 5 hi)
  · exact cancel₂ (by simpa only [inject_six] using hword 6 hi)
  · exact cancel₂ (by simpa only [inject_seven] using hword 7 hi)

theorem fitInjection_inject (s : Nat) : FitInjection p fun v => inject p v ks t s :=
  ⟨fun v _ => fits_inject p v ks t s, inject_injOn p ks t s⟩

theorem fitInjection_cipherSteps (n : Nat) : FitInjection p fun v => cipherSteps p ks t v n := by
  induction n with
  | zero => exact ⟨Set.mapsTo_id _, Set.injOn_id _⟩
  | succ d ih =>
    by_cases hd : d % 4 = 0
    · simp only [cipherSteps, if_pos hd]
      exact (fitInjection_elemRound p d).comp ((fitInjection_inject p ks t (d / 4)).comp ih)
    · simp only [cipherSteps, if_neg hd]
      exact (fitInjection_elemRound p d).comp ih

theorem fitInjection_cipher : FitInjection p (cipher p ks t) :=
  (fitInjection_inject p ks t 18).comp (fitInjection_cipherSteps p ks t cipherRounds)

end

/-- Settles O52: every part of the cipher is an injection of the finitely many states of `W`-bit words. -/
theorem cipherIsABijection : Obligations.CipherIsABijection := by
  intro p ks t out hout
  have fits_iff (v : Vec8) : (∀ i : Fin 8, FitsWord p v[i]) ↔ v ∈ fitting p := Fin.forall_iff
  simp only [fits_iff] at hout ⊢
  have hcipher := fitInjection_cipher p ks t
  obtain ⟨v, hv, rfl⟩ := hcipher.bijOn.surjOn hout
  exact ⟨v, ⟨hv, rfl⟩, fun w ⟨hw, h⟩ => hcipher.injOn hw hv h⟩

/-! ## The rounds with the word permutation (R171, R175) -/

/-- The vector whose word `i` is word `σ i` of `v`. -/
def reorder (σ : Fin 8 → Fin 8) (v : Vec8) : Vec8 := Vec8.gen fun i => v[σ i]

theorem reorder_getElem (σ : Fin 8 → Fin 8) (v : Vec8) (i : Fin 8) : (reorder σ v)[i] = v[σ i] :=
  Vec8.gen_getElem _ i i.isLt

theorem reorder_id (v : Vec8) : reorder id v = v := Vec8.gen_self v

theorem reorder_reorder (σ τ : Fin 8 → Fin 8) (v : Vec8) : reorder τ (reorder σ v) = reorder (σ ∘ τ) v :=
  Vec8.ext fun i => by simp only [reorder_getElem, Function.comp_apply]

/-- To mix two slots of the reordered words is to mix in place the slots they came from. -/
theorem mix_reorder {σ : Fin 8 → Fin 8} (hσ : Function.Injective σ) (p : Profile) (v : Vec8) {a b : Fin 8}
    (hab : a ≠ b) (r : Nat) : mix p (reorder σ v) a b r = reorder σ (mix p v (σ a) (σ b) r) := by
  refine Vec8.ext fun x => ?_
  rw [reorder_getElem]
  by_cases hb : x = b
  · simp only [hb, mix_at_b, reorder_getElem]
  by_cases ha : x = a
  · simp only [ha, mix_at_a p _ hab, mix_at_a p _ (hσ.ne hab), reorder_getElem]
  · rw [mix_elsewhere p _ ha hb, mix_elsewhere p _ (hσ.ne ha) (hσ.ne hb), reorder_getElem]

/-- Where the words stand as after `d` permutations, the neighbours are the pairs of round `d`. -/
theorem permRound_reorder (p : Profile) (v : Vec8) (d : Nat) :
    permRound p (reorder wordPi^[d] v) d = reorder wordPi^[d + 1] (elemRound p v d) := by
  have pair (u : Vec8) (j : Fin 4) :
      mix p (reorder wordPi^[d] u) (neighbour (j, false)) (neighbour (j, true)) (rotAmount p d j)
        = reorder wordPi^[d] (mixStep p d u j) := by
    have hne : neighbour (j, false) ≠ neighbour (j, true) := neighbour_bijective.1.ne (by simp)
    rw [mix_reorder (wordPi_injective.iterate d) p u hne, ← evenSlot_eq, ← oddSlot_eq, mixStep]
  calc permRound p (reorder wordPi^[d] v) d
      = reorder wordPi (reorder wordPi^[d] (elemRound p v d)) := by
        rw [elemRound, ← pair, ← pair, ← pair, ← pair]; rfl
    _ = reorder wordPi^[d + 1] (elemRound p v d) := reorder_reorder _ _ _

/-- After four rounds every word stands in its own slot again. -/
theorem reorder_wordPi_iterate {d : Nat} (hd : d % 4 = 0) (v : Vec8) : reorder wordPi^[d] v = v := by
  have hid : wordPi^[d] = id := funext fun i => by rw [← wordPi_iterate_mod_four, hd]; rfl
  rw [hid, reorder_id]

theorem permSteps_eq_reorder (p : Profile) (ks : Vector Word 9) (t : Vector Word 3) (v : Vec8) (n : Nat) :
    permSteps p ks t v n = reorder wordPi^[n] (cipherSteps p ks t v n) := by
  induction n with
  | zero => exact (reorder_id v).symm
  | succ d ih =>
    rw [permSteps, cipherSteps, ih, ← permRound_reorder]
    split
    next hd => rw [reorder_wordPi_iterate hd, reorder_wordPi_iterate hd]
    next => rfl

/-- Settles O53: the words stand as after `4m` permutations, which is in their own slots. -/
theorem inPlaceEqualsPermuted : Obligations.InPlaceEqualsPermuted := fun p ks t v m => by
  rw [permSteps_eq_reorder, reorder_wordPi_iterate (Nat.mul_mod_right 4 m)]

end Sys2Proof.Machine
end

section
/-! Issue, completion and errors of 60_exceptions.md: what the write to CMD does (O7), that a completed command is
either finished or has failed and changed only STATUS (O8), which commands always finish (O9), which error is reported
(O10), and the interrupt (O12). -/

namespace Sys2Proof.Machine

open Sys2Proof

/-! ## Issue (R190, R77) -/

theorem issue_of_legal {s : State} {w : Word32} (h : legalWord s.inst.pluginPresent w = true) :
    issue w s = accept w s :=
  if_pos h

/-- An illegal word completes in the step that issues it (log 9). -/
theorem issue_of_illegal {s : State} {w : Word32} (h : legalWord s.inst.pluginPresent w = false) :
    issue w s = complete .badCommand (accept w s) :=
  if_neg (by rw [h]; exact Bool.false_ne_true)

/-- A word written to CMD while idle is issued. -/
theorem hostWrite_cmd {s : State} (idle : s.status.busy = false) (w : Word32) :
    hostWrite 0x000 .word w s = issue w s :=
  hostWrite_of_idle locate_cmd rfl idle

/-- Settles O7. -/
theorem issueTakesOrRejectsAWord : Obligations.IssueTakesOrRejectsAWord := by
  intro s w hidle
  rw [hostWrite_cmd hidle]
  exact ⟨issue_of_legal, issue_of_illegal⟩

/-! ## Completion (R195, R196) -/

/-- How a command at `s` can end: finished after some effect, failed with nothing done before, or stopped by a
fault of the model. -/
inductive CommandCompletion (s : State) : Result → Prop where
  | finished (u : State) : CommandCompletion s (finish u)
  | failed (e : ErrCode) : CommandCompletion s (raise e s)
  | stopped (f : Fault) : CommandCompletion s (.fault f)

theorem withMessage_completion (s : State) (f : List Byte → State) : CommandCompletion s (withMessage s f) := by
  unfold withMessage
  cases inputError s with
  | some e => exact .failed e
  | none =>
    cases messageData s with
    | some d => exact .finished (f d)
    | none => exact .stopped .unwrittenMsg

theorem execLoadblk_completion (k : BitVec 8) (s : State) : CommandCompletion s (execLoadblk k s) := by
  unfold execLoadblk
  cases inputError s with
  | some e => exact .failed e
  | none =>
    by_cases hk : nblocks s.inst s.len.toNat ≤ k.toNat
    · simp only [if_pos hk]
      exact .failed .badArg
    · simp only [if_neg hk]
      cases messageBlock s k.toNat with
      | some d => exact .finished _
      | none => exact .stopped .unwrittenMsg

theorem exec_hash_of_valid {s : State} (h : s.status.ivv = true) :
    exec .hash s = withMessage s fun d => hashEffect d s :=
  if_pos h

theorem exec_hash_of_invalid {s : State} (h : s.status.ivv = false) : exec .hash s = raise .noIv s :=
  if_neg (by rw [h]; exact Bool.false_ne_true)

/-- INIT finishes, with a valid IV and without one. -/
theorem exec_init_eq_finish (s : State) : ∃ u, exec .init s = finish u := by
  cases hv : s.status.ivv with
  | true => exact ⟨_, exec_init_of_valid hv⟩
  | false => exact ⟨_, exec_init_of_invalid hv⟩

/-- HASH and LOADIV ask for a valid IV, the commands that read MSG check their operands, all the others finish. -/
theorem exec_completion (i : Instr) (s : State) : CommandCompletion s (exec i s) := by
  cases i with
  | init =>
    obtain ⟨u, hu⟩ := exec_init_eq_finish s
    rw [hu]
    exact .finished u
  | hash =>
    cases hv : s.status.ivv with
    | true => rw [exec_hash_of_valid hv]; exact withMessage_completion s _
    | false => rw [exec_hash_of_invalid hv]; exact .failed .noIv
  | loadiv =>
    cases hv : s.status.ivv with
    | true => rw [exec_loadiv_of_valid hv]; exact .finished _
    | false => rw [exec_loadiv_of_invalid hv]; exact .failed .noIv
  | ubi type => exact withMessage_completion s _
  | gfold => exact withMessage_completion s _
  | loadblk k => exact execLoadblk_completion k s
  | nop | clearcv | config | output | format | ksched | tweak _ _ _ | vload | inject _ | round _ | encrypt
  | feedfwd | block _ _ _ => exact .finished _

/-- The state in which a command ends is a completion, and with an error one of the state before it. -/
theorem exec_eq_complete {i : Instr} {s t : State} (h : exec i s = .next t) :
    ∃ e u, t = complete e u ∧ (e ≠ .none → u = s) := by
  have hends := exec_completion i s
  rw [h] at hends
  cases hends with
  | finished u => exact ⟨.none, u, rfl, fun he => absurd rfl he⟩
  | failed e => exact ⟨e, s, rfl, fun _ => rfl⟩

/-- Settles O8: the sticky bits are part of what every command keeps, the rest is its completion. -/
theorem commandsCompleteAndErrorsArePrecise : Obligations.CommandsCompleteAndErrorsArePrecise := by
  intro i s t h
  have hkeeps := exec_keeps h
  obtain ⟨e, u, rfl, hfailed⟩ := exec_eq_complete h
  refine ⟨rfl, rfl, hkeeps.werr, hkeeps.aerr, fun herr => ?_⟩
  obtain rfl := hfailed herr
  rfl

/-- Settles O9: INIT has two ways to finish, thirteen commands have one, and the other five are not in the list. -/
theorem fourteenCommandsNeverFail : Obligations.FourteenCommandsNeverFail := by
  intro s type first final n d i hi
  cases i with
  | init =>
    obtain ⟨u, hu⟩ := exec_init_eq_finish s
    exact ⟨complete .none u, hu, rfl⟩
  | nop | clearcv | config | output | format | ksched | tweak _ _ _ | vload | inject _ | round _ | encrypt
  | feedfwd | block _ _ _ => exact ⟨_, rfl, rfl⟩
  | hash | loadiv | ubi _ | gfold | loadblk _ => exact absurd hi (by simp)

/-! ## Which error is reported (R194) -/

theorem withMessage_of_inputError {s : State} {e : ErrCode} (h : inputError s = some e)
    (f : List Byte → State) : withMessage s f = raise e s := by
  simp only [withMessage, h]

/-- The four commands that read MSG report an error of LEN, HASH with a valid IV (R105). -/
theorem exec_of_inputError {s : State} {e : ErrCode} (h : inputError s = some e) (type : BitVec 6)
    (k : BitVec 8) :
    (s.status.ivv = true → exec .hash s = raise e s) ∧ exec (.ubi type) s = raise e s ∧
      exec .gfold s = raise e s ∧ exec (.loadblk k) s = raise e s := by
  refine ⟨fun hv => ?hash, withMessage_of_inputError h _, withMessage_of_inputError h _, ?loadblk⟩
  case hash => rw [exec_hash_of_valid hv, withMessage_of_inputError h]
  case loadblk => simp only [exec, execLoadblk, h]

/-- LOADBLK reports a block beyond the data, once LEN is accepted (R115). -/
theorem exec_loadblk_of_beyond {s : State} (hl : s.LenAccepted) {k : BitVec 8}
    (hk : nblocks s.inst s.len.toNat ≤ k.toNat) : exec (.loadblk k) s = raise .badArg s := by
  simp only [exec, execLoadblk, (inputError_eq_none s).2 hl, if_pos hk]

/-- Settles O10, error by error in the order of R194. -/
theorem firstErrorInOrderIsReported : Obligations.FirstErrorInOrderIsReported := by
  intro s type k error
  refine ⟨?badCommand, ?noIv, ?lenRange, ?invalidInput, ?badArg⟩
  case badCommand =>
    intro w hidle hillegal
    rw [hostWrite_cmd hidle, issue_of_illegal hillegal]
    rfl
  case noIv => exact fun hinvalid => ⟨exec_hash_of_invalid hinvalid, exec_loadiv_of_invalid hinvalid⟩
  case lenRange =>
    intro hrange
    exact exec_of_inputError ((inputError_eq_some s .lenRange).2 (.inl ⟨hrange, rfl⟩)) type k
  case invalidInput =>
    intro hrange hodd
    exact exec_of_inputError ((inputError_eq_some s .invalidInput).2 (.inr ⟨hrange, hodd, rfl⟩)) type k
  case badArg => exact fun hrange heven hbeyond => exec_loadblk_of_beyond ⟨hrange, heven⟩ hbeyond

/-! ## The interrupt (R199) -/

/-- A completion sets DONE. -/
@[simp] theorem complete_irq (e : ErrCode) (s : State) : (complete e s).irq = s.ie := Bool.and_true s.ie

theorem irq_of_not_done {s : State} (h : s.status.done = false) : s.irq = false := by
  rw [State.irq, h, Bool.and_false]

/-- Settles O12: a completion sets DONE and keeps IE; an issue and a 1 written to DONE clear DONE; a reset clears
both. -/
theorem interruptFollowsEnableAndDone : Obligations.InterruptFollowsEnableAndDone := by
  refine ⟨?completion, fun s => ⟨rfl, irq_of_not_done rfl⟩, ?issue, ?acknowledge, ?enable⟩
  case completion =>
    intro i s t h
    have hie := (exec_keeps h).ie
    obtain ⟨e, u, rfl, -⟩ := exec_eq_complete h
    rw [complete_irq]
    exact hie
  case issue =>
    intro s w hidle hlegal
    rw [hostWrite_cmd hidle, issue_of_legal hlegal]
    exact irq_of_not_done rfl
  case acknowledge =>
    intro s d hbit
    constructor
    · rw [hostWrite_status]
      refine irq_of_not_done ?_
      rw [Status.clear_done, hbit, Bool.not_true, Bool.and_false]
    · rw [hostWrite_ctrl_of_srst hbit]
      exact irq_of_not_done rfl
  case enable =>
    intro s d hno
    rw [hostWrite_ctrl_of_no_srst hno]
    rfl

end Sys2Proof.Machine
end

section
/-! Reset (O13, O14), and why no command is left running once the agenda is used up (O60): a step takes one event
off the agenda, and a turn of the engine leaves it idle. -/

namespace Sys2Proof.Machine

open Sys2Proof

/-! ## Reset (R47, R215, R217) -/

/-- Where nothing of DIGEST and MSG was written, no offset has a byte. -/
theorem bufByte_of_unwritten {s : State} (hd : s.digest = []) (hm : s.msg = []) (off : Nat) :
    s.bufByte off = none := by
  unfold State.bufByte
  rw [hd, hm]
  split
  · exact Memory.read_nil _
  · split
    · exact Memory.read_nil _
    · rfl

/-- The state after reset is one that a hardware reset leaves as it is. -/
theorem hardReset_reset : hardReset State.reset = State.reset := rfl

theorem hardReset_irq (s : State) : (hardReset s).irq = false := irq_of_not_done rfl

theorem softReset_irq (s : State) : (softReset s).irq = false := irq_of_not_done rfl

/-- Settles O13: what holds after every hardware reset holds of `State.reset`, which is one. -/
theorem hardwareResetValues : Obligations.HardwareResetValues := by
  have hreset : ∀ s : State, (hardReset s).RegistersReset ∧ (∀ off, (hardReset s).bufByte off = none) ∧
      (hardReset s).irq = false :=
    fun s => ⟨hardReset_registersReset s, bufByte_of_unwritten rfl rfl, hardReset_irq s⟩
  exact ⟨hardReset_reset ▸ hreset State.reset, hreset⟩

/-- Settles O14: the write is the soft reset, BUSY or not. -/
theorem softResetKeepsBuffers : Obligations.SoftResetKeepsBuffers := by
  intro s d hsrst
  rw [hostWrite_ctrl_of_srst hsrst]
  exact ⟨softReset_registersReset s, softReset_irq s, softReset_msg s, softReset_digest s⟩

/-! ## A step takes one event off the agenda (R229; log 7) -/

@[simp] theorem hostRead_agenda (off : Nat) (size : Size) (s : State) :
    (hostRead off size s).agenda = s.agenda := by
  obtain ⟨r, hr | hr⟩ := hostRead_cases off size s
  · rw [hr]
  · rw [hr]; exact ignoreAccess_agenda s

@[simp] theorem issue_agenda (c : Word32) (s : State) : (issue c s).agenda = s.agenda := by
  unfold issue
  split
  · rfl
  · rfl

theorem WriteEffect.agenda {s t : State} (h : WriteEffect s t) : t.agenda = s.agenda := by
  cases h with
  | issue _ c => exact issue_agenda c s
  | none | drop | ignore | clear | reset | ie | len | pos | cv | blk | msg => rfl

/-- No act of the host, of the platform or of the engine puts an event on the agenda. -/
theorem step_agenda {s t : State} (h : step s = .next t) : t.agenda = s.agenda.tail := by
  cases step_effect h with
  | command _ _ _ _ hx => exact (exec_keeps hx).agenda
  | read off size _ => exact hostRead_agenda off size s.popped
  | write off size d _ => exact (hostWrite_effect off size d s.popped).agenda
  | idle | illegal | reset => rfl

/-! ## The engine's turn leaves it idle (R195, R228) -/

theorem complete_busy (e : ErrCode) (s : State) : (complete e s).status.busy = false :=
  Status.complete_busy s.status e

/-- Running, the engine completes the command in CMD, legal or not; idle, it stays so. -/
theorem engineTurn_leaves_idle {s t : State} (h : engineTurn s = .next t) : t.status.busy = false := by
  cases hbusy : s.status.busy with
  | false =>
    rw [engineTurn_of_idle hbusy] at h
    cases h
    exact hbusy
  | true =>
    cases hdecode : decode s.inst.pluginPresent s.cmd with
    | ok i =>
      rw [engineTurn_of_busy hbusy hdecode] at h
      obtain ⟨e, u, rfl, -⟩ := exec_eq_complete h
      exact complete_busy e u
    | error w =>
      rw [engineTurn, if_pos hbusy, hdecode] at h
      obtain rfl := (raise_eq_next _ _ _).1 h
      exact complete_busy .badCommand s

/-! ## Runs -/

/-- A run of one step more is a step and the run from where it leads, whatever the machine. -/
theorem coreRun_succ_eq_next {M : Host.Core} {k : Nat} {s t : M.State} (h : M.run (k + 1) s = .next t) :
    ∃ u, M.step s = .next u ∧ M.run k u = .next t := by
  rw [Host.Core.run] at h
  cases hstep : M.step s with
  | next u => rw [hstep] at h; exact ⟨u, rfl, h⟩
  | fault f => rw [hstep] at h; cases h
  | refused r => rw [hstep] at h; cases h

theorem run_succ_eq_next {k : Nat} {s t : State} (h : core.run (k + 1) s = .next t) :
    ∃ u : State, step s = .next u ∧ core.run k u = .next t :=
  coreRun_succ_eq_next h

/-- Settles O60, by induction on the agenda: a step takes its first event off, and with none left the step is the
engine's turn. -/
theorem acceptedCommandsComplete : Obligations.AcceptedCommandsComplete := by
  intro s t hrun
  induction hagenda : s.agenda generalizing s with
  | nil =>
    rw [hagenda] at hrun
    obtain ⟨u, hstep, hu⟩ := run_succ_eq_next hrun
    rw [step_of_agenda_nil hagenda] at hstep
    cases hu
    exact engineTurn_leaves_idle hstep
  | cons e rest ih =>
    rw [hagenda] at hrun
    obtain ⟨u, hstep, hu⟩ := run_succ_eq_next hrun
    have hrest : u.agenda = rest := by rw [step_agenda hstep, hagenda, List.tail_cons]
    exact ih u (by rwa [hrest]) hrest

end Sys2Proof.Machine
end
